-- ==== Sys2Proof/Word.lean ====
section
/-! DEFINITION. The machine's words: the widths the spec gives its registers and instruction fields. -/

namespace Sys2Proof

/-- A byte of memory, a V register, a timer (10_state.md R30). -/
abbrev Byte := BitVec 8

/-- A 16-bit register or instruction word (10_state.md R30, 30_encoding.md R80). -/
abbrev Word := BitVec 16

/-- One hex digit: a register number, a key number, a 4-bit field (00_scope.md R9, 30_encoding.md R81). -/
abbrev Digit := BitVec 4

/-- The 12-bit field `nnn` (30_encoding.md R81). -/
abbrev Addr12 := BitVec 12

end Sys2Proof
end

