-- ==== Sys2Proof/Syntax.lean ====
section
/-! DEFINITION. The instruction set: one constructor per row of spec/opcode_table.json
(30_encoding.md R85), its operands the fields the row's pattern names (R81). -/

namespace Sys2Proof

/-- The 34 instructions, in the order of 30_encoding.md R85. -/
inductive Instr where
  | cls                            -- 00E0 CLS
  | ret                            -- 00EE RET
  | jp     (nnn : Addr12)          -- 1nnn JP nnn
  | call   (nnn : Addr12)          -- 2nnn CALL nnn
  | seImm  (x : Digit) (nn : Byte) -- 3xnn SE Vx, nn
  | sneImm (x : Digit) (nn : Byte) -- 4xnn SNE Vx, nn
  | seReg  (x y : Digit)           -- 5xy0 SE Vx, Vy
  | ldImm  (x : Digit) (nn : Byte) -- 6xnn LD Vx, nn
  | addImm (x : Digit) (nn : Byte) -- 7xnn ADD Vx, nn
  | ldReg  (x y : Digit)           -- 8xy0 LD Vx, Vy
  | orReg  (x y : Digit)           -- 8xy1 OR Vx, Vy
  | andReg (x y : Digit)           -- 8xy2 AND Vx, Vy
  | xorReg (x y : Digit)           -- 8xy3 XOR Vx, Vy
  | addReg (x y : Digit)           -- 8xy4 ADD Vx, Vy
  | subReg (x y : Digit)           -- 8xy5 SUB Vx, Vy
  | shr    (x y : Digit)           -- 8xy6 SHR Vx (y kept, not read: R86)
  | subn   (x y : Digit)           -- 8xy7 SUBN Vx, Vy
  | shl    (x y : Digit)           -- 8xyE SHL Vx (y kept, not read: R86)
  | sneReg (x y : Digit)           -- 9xy0 SNE Vx, Vy
  | ldI    (nnn : Addr12)          -- Annn LD I, nnn
  | jpV0   (nnn : Addr12)          -- Bnnn JP V0, nnn
  | rnd    (x : Digit) (nn : Byte) -- Cxnn RND Vx, nn
  | drw    (x y n : Digit)         -- Dxyn DRW Vx, Vy, n
  | skp    (x : Digit)             -- Ex9E SKP Vx
  | sknp   (x : Digit)             -- ExA1 SKNP Vx
  | ldVxDT (x : Digit)             -- Fx07 LD Vx, DT
  | ldVxK  (x : Digit)             -- Fx0A LD Vx, K
  | ldDTVx (x : Digit)             -- Fx15 LD DT, Vx
  | ldSTVx (x : Digit)             -- Fx18 LD ST, Vx
  | addI   (x : Digit)             -- Fx1E ADD I, Vx
  | ldF    (x : Digit)             -- Fx29 LD F, Vx
  | ldB    (x : Digit)             -- Fx33 LD B, Vx
  | stRegs (x : Digit)             -- Fx55 LD [I], Vx
  | ldRegs (x : Digit)             -- Fx65 LD Vx, [I]
deriving DecidableEq, Repr

/-- What a 16-bit word decodes to: an instruction, or by name the word no row matches
(30_encoding.md R84, 40_engine.md R105). -/
inductive Decoded where
  | instr   (i : Instr)
  | unknown (w : Word)
deriving DecidableEq, Repr

/-- What a run of bytes decodes to: the first word's decoding with the bytes after it, or, by name,
that there are not two bytes to read. -/
inductive DecodedBytes where
  | word      (d : Decoded) (rest : List Byte)
  | truncated
deriving DecidableEq, Repr

end Sys2Proof
end

