-- ==== Sys2Proof/WellFormed.lean ====
section
/-! DEFINITION. Which words are well formed: the opcode table of 30_encoding.md R85 as data, and the check that a
word matches a row of it. The operands of an `Instr` have exactly the widths of their fields
(30_encoding.md R81), so every term of `Instr` is well formed; what can be ill formed is a word. -/

namespace Sys2Proof

/-- One row of 30_encoding.md R85: a word w is the instruction when w & mask = match. -/
structure OpcodeRow where
  mnemonic : String
  pattern  : Word
  mask     : Word
deriving DecidableEq, Repr

/-- The test of 30_encoding.md R85. -/
def OpcodeRow.matchesWord (r : OpcodeRow) (w : Word) : Bool :=
  w &&& r.mask == r.pattern

/-- The row of 30_encoding.md R85 an instruction stands for. -/
def Instr.row : Instr → OpcodeRow
  | .cls => ⟨"CLS", 0x00E0, 0xFFFF⟩
  | .ret => ⟨"RET", 0x00EE, 0xFFFF⟩
  | .jp _ => ⟨"JP_nnn", 0x1000, 0xF000⟩
  | .call _ => ⟨"CALL_nnn", 0x2000, 0xF000⟩
  | .seImm _ _ => ⟨"SE_Vx__nn", 0x3000, 0xF000⟩
  | .sneImm _ _ => ⟨"SNE_Vx__nn", 0x4000, 0xF000⟩
  | .seReg _ _ => ⟨"SE_Vx__Vy", 0x5000, 0xF00F⟩
  | .ldImm _ _ => ⟨"LD_Vx__nn", 0x6000, 0xF000⟩
  | .addImm _ _ => ⟨"ADD_Vx__nn", 0x7000, 0xF000⟩
  | .ldReg _ _ => ⟨"LD_Vx__Vy", 0x8000, 0xF00F⟩
  | .orReg _ _ => ⟨"OR_Vx__Vy", 0x8001, 0xF00F⟩
  | .andReg _ _ => ⟨"AND_Vx__Vy", 0x8002, 0xF00F⟩
  | .xorReg _ _ => ⟨"XOR_Vx__Vy", 0x8003, 0xF00F⟩
  | .addReg _ _ => ⟨"ADD_Vx__Vy", 0x8004, 0xF00F⟩
  | .subReg _ _ => ⟨"SUB_Vx__Vy", 0x8005, 0xF00F⟩
  | .shr _ _ => ⟨"SHR_Vx____Vy", 0x8006, 0xF00F⟩
  | .subn _ _ => ⟨"SUBN_Vx__Vy", 0x8007, 0xF00F⟩
  | .shl _ _ => ⟨"SHL_Vx____Vy", 0x800E, 0xF00F⟩
  | .sneReg _ _ => ⟨"SNE_Vx__Vy", 0x9000, 0xF00F⟩
  | .ldI _ => ⟨"LD_I__nnn", 0xA000, 0xF000⟩
  | .jpV0 _ => ⟨"JP_V0__nnn", 0xB000, 0xF000⟩
  | .rnd _ _ => ⟨"RND_Vx__nn", 0xC000, 0xF000⟩
  | .drw _ _ _ => ⟨"DRW_Vx__Vy__n", 0xD000, 0xF000⟩
  | .skp _ => ⟨"SKP_Vx", 0xE09E, 0xF0FF⟩
  | .sknp _ => ⟨"SKNP_Vx", 0xE0A1, 0xF0FF⟩
  | .ldVxDT _ => ⟨"LD_Vx__DT", 0xF007, 0xF0FF⟩
  | .ldVxK _ => ⟨"LD_Vx__K", 0xF00A, 0xF0FF⟩
  | .ldDTVx _ => ⟨"LD_DT__Vx", 0xF015, 0xF0FF⟩
  | .ldSTVx _ => ⟨"LD_ST__Vx", 0xF018, 0xF0FF⟩
  | .addI _ => ⟨"ADD_I__Vx", 0xF01E, 0xF0FF⟩
  | .ldF _ => ⟨"LD_F__Vx", 0xF029, 0xF0FF⟩
  | .ldB _ => ⟨"LD_B__Vx", 0xF033, 0xF0FF⟩
  | .stRegs _ => ⟨"LD__I___Vx", 0xF055, 0xF0FF⟩
  | .ldRegs _ => ⟨"LD_Vx___I", 0xF065, 0xF0FF⟩

/-- The rows of the families 0 to 8 (30_encoding.md R85, rows 1 to 18). -/
def opcodeRows0to8 : List OpcodeRow :=
  [Instr.row (.cls), Instr.row (.ret), Instr.row (.jp 0), Instr.row (.call 0), Instr.row (.seImm 0 0),
   Instr.row (.sneImm 0 0), Instr.row (.seReg 0 0), Instr.row (.ldImm 0 0), Instr.row (.addImm 0 0),
   Instr.row (.ldReg 0 0), Instr.row (.orReg 0 0), Instr.row (.andReg 0 0), Instr.row (.xorReg 0 0),
   Instr.row (.addReg 0 0), Instr.row (.subReg 0 0), Instr.row (.shr 0 0), Instr.row (.subn 0 0),
   Instr.row (.shl 0 0)]

/-- The rows of the families 9 to F (30_encoding.md R85, rows 19 to 34). -/
def opcodeRows9toF : List OpcodeRow :=
  [Instr.row (.sneReg 0 0), Instr.row (.ldI 0), Instr.row (.jpV0 0), Instr.row (.rnd 0 0),
   Instr.row (.drw 0 0 0), Instr.row (.skp 0), Instr.row (.sknp 0), Instr.row (.ldVxDT 0),
   Instr.row (.ldVxK 0), Instr.row (.ldDTVx 0), Instr.row (.ldSTVx 0), Instr.row (.addI 0),
   Instr.row (.ldF 0), Instr.row (.ldB 0), Instr.row (.stRegs 0), Instr.row (.ldRegs 0)]

/-- The opcode map of 30_encoding.md R85, all 34 rows. -/
def opcodeTable : List OpcodeRow :=
  opcodeRows0to8 ++ opcodeRows9toF

/-- A word is well formed when it matches a row of the opcode map; any other word is unknown
(30_encoding.md R84, R87). -/
def Word.wellFormed (w : Word) : Bool :=
  opcodeTable.any fun r => r.matchesWord w

end Sys2Proof
end

