-- ==== Sys2Proof/Decode.lean ====
section
/-! DEFINITION. The decoder, total on words and on bytes and rejecting by name, and the encoder, both written
from the field layout of 30_encoding.md R81 and R82 and the opcode map of R85. -/

namespace Sys2Proof

/-- The family nibble, w[15:12] (30_encoding.md R81). -/
def Word.op (w : Word) : Digit := w.extractLsb' 12 4

/-- Register operand 1, w[11:8] (30_encoding.md R81). -/
def Word.x (w : Word) : Digit := w.extractLsb' 8 4

/-- Register operand 2, w[7:4] (30_encoding.md R81). -/
def Word.y (w : Word) : Digit := w.extractLsb' 4 4

/-- The 4-bit immediate, w[3:0] (30_encoding.md R81). -/
def Word.n (w : Word) : Digit := w.extractLsb' 0 4

/-- The immediate byte, w[7:0] (30_encoding.md R81). -/
def Word.nn (w : Word) : Byte := w.extractLsb' 0 8

/-- The 12-bit address field, w[11:0] (30_encoding.md R81). -/
def Word.nnn (w : Word) : Addr12 := w.extractLsb' 0 12

/-- Two bytes as one word, the first byte high (20_memory.md R64). -/
def Word.ofBytes (hi lo : Byte) : Word := hi ++ lo

/-- The high byte of a word, which memory holds first (20_memory.md R64). -/
def Word.hi (w : Word) : Byte := w.extractLsb' 8 8

/-- The low byte of a word, which memory holds second (20_memory.md R64). -/
def Word.lo (w : Word) : Byte := w.extractLsb' 0 8

/-- Family 0: only the two words 0x00E0 and 0x00EE (30_encoding.md R85, R87). -/
def decodeFamily0 (w : Word) : Decoded :=
  if w = 0x00E0 then .instr .cls
  else if w = 0x00EE then .instr .ret
  else .unknown w

/-- Family 8, by the sub-selector n (30_encoding.md R85, R87). -/
def decodeFamily8 (w : Word) : Decoded :=
  match w.n.toNat with
  | 0x0 => .instr (.ldReg w.x w.y)
  | 0x1 => .instr (.orReg w.x w.y)
  | 0x2 => .instr (.andReg w.x w.y)
  | 0x3 => .instr (.xorReg w.x w.y)
  | 0x4 => .instr (.addReg w.x w.y)
  | 0x5 => .instr (.subReg w.x w.y)
  | 0x6 => .instr (.shr w.x w.y)
  | 0x7 => .instr (.subn w.x w.y)
  | 0xE => .instr (.shl w.x w.y)
  | _   => .unknown w

/-- Family E, by the sub-selector nn (30_encoding.md R85, R87). -/
def decodeFamilyE (w : Word) : Decoded :=
  match w.nn.toNat with
  | 0x9E => .instr (.skp w.x)
  | 0xA1 => .instr (.sknp w.x)
  | _    => .unknown w

/-- Family F, by the sub-selector nn (30_encoding.md R85, R87). -/
def decodeFamilyF (w : Word) : Decoded :=
  match w.nn.toNat with
  | 0x07 => .instr (.ldVxDT w.x)
  | 0x0A => .instr (.ldVxK w.x)
  | 0x15 => .instr (.ldDTVx w.x)
  | 0x18 => .instr (.ldSTVx w.x)
  | 0x1E => .instr (.addI w.x)
  | 0x29 => .instr (.ldF w.x)
  | 0x33 => .instr (.ldB w.x)
  | 0x55 => .instr (.stRegs w.x)
  | 0x65 => .instr (.ldRegs w.x)
  | _    => .unknown w

/-- `Decode(w)`, family first and then the sub-selectors (30_encoding.md R84; families 5 and 9 need
n = 0, 90_conflicts.md C5). -/
def decode (w : Word) : Decoded :=
  match w.op.toNat with
  | 0x0 => decodeFamily0 w
  | 0x1 => .instr (.jp w.nnn)
  | 0x2 => .instr (.call w.nnn)
  | 0x3 => .instr (.seImm w.x w.nn)
  | 0x4 => .instr (.sneImm w.x w.nn)
  | 0x5 => if w.n = 0 then .instr (.seReg w.x w.y) else .unknown w
  | 0x6 => .instr (.ldImm w.x w.nn)
  | 0x7 => .instr (.addImm w.x w.nn)
  | 0x8 => decodeFamily8 w
  | 0x9 => if w.n = 0 then .instr (.sneReg w.x w.y) else .unknown w
  | 0xA => .instr (.ldI w.nnn)
  | 0xB => .instr (.jpV0 w.nnn)
  | 0xC => .instr (.rnd w.x w.nn)
  | 0xD => .instr (.drw w.x w.y w.n)
  | 0xE => decodeFamilyE w
  | 0xF => decodeFamilyF w
  | _   => .unknown w

/-- The decoder on bytes: the first two, the high byte first (20_memory.md R64), and the bytes after. -/
def decodeBytes : List Byte → DecodedBytes
  | hi :: lo :: rest => .word (decode (Word.ofBytes hi lo)) rest
  | _ => .truncated

/-- What the decoder reads from an instruction of the opcode table whose bits are w, numbered as the
table numbers them (bit 0 the least significant bit of the one 16-bit word): the word is laid out in
memory order, high byte first, and given to the decoder. -/
def decodeTableWord (nbits w : Nat) : Option Instr :=
  let word : Word := BitVec.ofNat 16 (w % 2 ^ nbits)
  match decodeBytes [word.hi, word.lo] with
  | .word (.instr i) _ => some i
  | _ => none

/-- Format `nnn` (30_encoding.md R82). -/
def Word.ofNnn (op : Digit) (nnn : Addr12) : Word := op ++ nnn

/-- Format `xnn`, and format `x` with nn the sub-selector (30_encoding.md R82). -/
def Word.ofXnn (op x : Digit) (nn : Byte) : Word := op ++ (x ++ nn)

/-- Format `xyn`, and format `xy` with n the sub-selector (30_encoding.md R82). -/
def Word.ofXyn (op x y n : Digit) : Word := op ++ (x ++ (y ++ n))

/-- The word of an instruction (30_encoding.md R82, R85). -/
def Instr.encode : Instr → Word
  | .cls         => 0x00E0
  | .ret         => 0x00EE
  | .jp nnn      => Word.ofNnn 0x1 nnn
  | .call nnn    => Word.ofNnn 0x2 nnn
  | .seImm x nn  => Word.ofXnn 0x3 x nn
  | .sneImm x nn => Word.ofXnn 0x4 x nn
  | .seReg x y   => Word.ofXyn 0x5 x y 0x0
  | .ldImm x nn  => Word.ofXnn 0x6 x nn
  | .addImm x nn => Word.ofXnn 0x7 x nn
  | .ldReg x y   => Word.ofXyn 0x8 x y 0x0
  | .orReg x y   => Word.ofXyn 0x8 x y 0x1
  | .andReg x y  => Word.ofXyn 0x8 x y 0x2
  | .xorReg x y  => Word.ofXyn 0x8 x y 0x3
  | .addReg x y  => Word.ofXyn 0x8 x y 0x4
  | .subReg x y  => Word.ofXyn 0x8 x y 0x5
  | .shr x y     => Word.ofXyn 0x8 x y 0x6
  | .subn x y    => Word.ofXyn 0x8 x y 0x7
  | .shl x y     => Word.ofXyn 0x8 x y 0xE
  | .sneReg x y  => Word.ofXyn 0x9 x y 0x0
  | .ldI nnn     => Word.ofNnn 0xA nnn
  | .jpV0 nnn    => Word.ofNnn 0xB nnn
  | .rnd x nn    => Word.ofXnn 0xC x nn
  | .drw x y n   => Word.ofXyn 0xD x y n
  | .skp x       => Word.ofXnn 0xE x 0x9E
  | .sknp x      => Word.ofXnn 0xE x 0xA1
  | .ldVxDT x    => Word.ofXnn 0xF x 0x07
  | .ldVxK x     => Word.ofXnn 0xF x 0x0A
  | .ldDTVx x    => Word.ofXnn 0xF x 0x15
  | .ldSTVx x    => Word.ofXnn 0xF x 0x18
  | .addI x      => Word.ofXnn 0xF x 0x1E
  | .ldF x       => Word.ofXnn 0xF x 0x29
  | .ldB x       => Word.ofXnn 0xF x 0x33
  | .stRegs x    => Word.ofXnn 0xF x 0x55
  | .ldRegs x    => Word.ofXnn 0xF x 0x65

end Sys2Proof
end

