-- ==== Sys2Proof/Config.lean ====
section
/-! DEFINITION. The session's parameters (00_scope.md R7) with their defaults, and the free values the
spec leaves open (00_scope.md R8). -/

namespace Sys2Proof

/-- `UNKNOWN_POLICY` (40_engine.md R108). -/
inductive UnknownPolicy where
  | halt
  | skip
deriving DecidableEq, Repr

/-- `FX1E_WRAP` (43_index_memory.md R202). -/
inductive IndexWrap where
  | mod65536
  | mod4096
deriving DecidableEq, Repr

/-- `DRAW_EDGE` (44_display.md R234). -/
inductive DrawEdge where
  | clip
  | wrap
deriving DecidableEq, Repr

/-- `KEY_INDEX_POLICY` (45_keypad_timer_ops.md R260). -/
inductive KeyIndexPolicy where
  | fault
  | lowNibble
deriving DecidableEq, Repr

/-- The parameters of one session, fixed for the whole of it (00_scope.md R7). -/
structure Config where
  unknownPolicy        : UnknownPolicy
  fx1eWrap             : IndexWrap
  drawEdge             : DrawEdge
  keyIndexPolicy       : KeyIndexPolicy
  loadStoreIncrementsI : Bool
  font                 : Vector Byte 80
deriving DecidableEq, Repr

/-- The default glyphs of the digits 0 to 7 (10_state.md R45). -/
def Config.glyphs0to7 : List Byte :=
  [0xF0, 0x90, 0x90, 0x90, 0xF0] ++ [0x20, 0x60, 0x20, 0x20, 0x70] ++
  [0xF0, 0x10, 0xF0, 0x80, 0xF0] ++ [0xF0, 0x10, 0xF0, 0x10, 0xF0] ++
  [0x90, 0x90, 0xF0, 0x10, 0x10] ++ [0xF0, 0x80, 0xF0, 0x10, 0xF0] ++
  [0xF0, 0x80, 0xF0, 0x90, 0xF0] ++ [0xF0, 0x10, 0x20, 0x40, 0x40]

/-- The default glyphs of the digits 8 to F (10_state.md R45). -/
def Config.glyphs8toF : List Byte :=
  [0xF0, 0x90, 0xF0, 0x90, 0xF0] ++ [0xF0, 0x90, 0xF0, 0x10, 0xF0] ++
  [0xF0, 0x90, 0xF0, 0x90, 0x90] ++ [0xE0, 0x90, 0xE0, 0x90, 0xE0] ++
  [0xF0, 0x80, 0x80, 0x80, 0xF0] ++ [0xE0, 0x90, 0x90, 0x90, 0xE0] ++
  [0xF0, 0x80, 0xF0, 0x80, 0xF0] ++ [0xF0, 0x80, 0xF0, 0x80, 0x80]

/-- The default `FONT`, glyph d at offset 5 * d (10_state.md R45).
PRESUMED (log 9): the spec marks the bytes as general knowledge. -/
def Config.standardFont : Vector Byte 80 :=
  ⟨(Config.glyphs0to7 ++ Config.glyphs8toF).toArray, rfl⟩

/-- The defaults of 00_scope.md R7. -/
def Config.default : Config where
  unknownPolicy        := .halt
  fx1eWrap             := .mod65536
  drawEdge             := .clip
  keyIndexPolicy       := .fault
  loadStoreIncrementsI := false
  font                 := Config.standardFont

/-- The draw `RAND` (42_alu.md R172): the byte of the n-th draw, under no law. FREE VALUE (log 3). -/
opaque Config.rand : Nat → Byte

/-- The draw `KEY_CHOICE` (45_keypad_timer_ops.md R264): which candidate the n-th draw takes, counted
along the candidates and past the last one from the first again. FREE VALUE (log 4). -/
opaque Config.keyChoice : Nat → Nat

end Sys2Proof
end

