-- ==== Sys2Proof/Machine/State.lean ====
section
/-! DEFINITION. The machine's state as plain data (10_state.md R30, and four fields of the model's own), the fault
record, the events and outputs of the interface, and the state right after reset. -/

namespace Sys2Proof.Machine

/-- The bytes of the one address space that differ from what an unlisted address reads as
(`Memory.unlisted`), in rising address order (`Memory.wf`); 20_memory.md R60. -/
abbrev Memory := List Host.Cell

/-- 32 rows of 64 pixels, true is on (10_state.md R40). -/
abbrev Display := Vector (Vector Bool 64) 32

/-- 16 flags, one per key (10_state.md R41, R44). -/
abbrev KeyFlags := Vector Bool 16

/-- The causes of 60_exceptions.md R300, each with the extra information the table lists for it. -/
inductive FaultCause where
  | fetchOutOfRange
  | memOutOfRange (target : Nat)
  | stackOverflow
  | stackUnderflow
  | unknownOpcode
  | keyIndexOutOfRange (value : Byte)
deriving DecidableEq, Repr

/-- The fault record (10_state.md R46, 60_exceptions.md R301): the cause, the address of the faulting
instruction, and the word fetched (none for a fetch fault). -/
structure FaultRecord where
  cause  : FaultCause
  addr   : Word
  opcode : Option Word
deriving DecidableEq, Repr

/-- Why the session halted (10_state.md R43). -/
inductive HaltReason where
  | stopped
  | fault (record : FaultRecord)
deriving DecidableEq, Repr

/-- The run state (10_state.md R43). -/
inductive RunState where
  | ready
  | running
  | awaitingKey (x : Digit)
  | halted (why : HaltReason)
deriving DecidableEq, Repr

/-- One atomic step of some agent (40_engine.md R100, 60_exceptions.md R330): the engine's turn, a timer
tick, or an event of the host. -/
inductive Event where
  | engine
  | tick
  | start
  | stop
  | load (rom : List Byte)
  | keyWrite (mask values : BitVec 16)
deriving DecidableEq, Repr

/-- The answer to a load (60_exceptions.md R331). -/
inductive LoadResult where
  | ok
  | romTooLarge
  | notReady
deriving DecidableEq, Repr

/-- An output event (60_exceptions.md R330). -/
inductive Output where
  | diagnostic (addr opcode : Word)
  | loadResult (result : LoadResult)
deriving DecidableEq, Repr

/-- The machine's state. The first twelve fields are those of 10_state.md R30; the last four are the
model's own: the session's parameters (log 2), the schedule (log 1), the count of draws taken (log 3)
and the output events so far, newest first (log 8). -/
structure State where
  mem     : Memory
  V       : Vector Byte 16
  I       : Word
  pc      : Word
  stack   : Vector Word 16
  sp      : Fin 17
  DT      : Byte
  ST      : Byte
  disp    : Display
  keys    : KeyFlags
  run     : RunState
  keyEdge : KeyFlags
  cfg     : Config
  sched   : List Event
  draws   : Nat
  outputs : List Output
deriving DecidableEq, Repr

/-- Why a step gives no next state. No fault of the SPEC is one of these: those are next states whose
run state is `Halted(Fault(record))` (log 5). -/
inductive Fault where
  /-- Raised by `engineStep` when the engine is given a turn in `Halted(_)`: no step is enabled there
  and the run has ended (40_engine.md R110, 60_exceptions.md R304). Safe: the model stops where the
  machine has nothing more to do (log 6). -/
  | runEnded (why : HaltReason)
deriving DecidableEq, Repr

/-- Why an instruction is refused. -/
inductive Refusal where
  /-- Raised by an arm of `exec` whose instruction has no meaning yet; no arm does. Safe: the model
  stops where the hardware goes on. -/
  | notModelled (mnemonic : String)
deriving DecidableEq, Repr

/-- What a step answers. -/
abbrev Result := Host.Outcome State Fault Refusal

/-- The state right after construction (10_state.md R47, 70_reset_and_hazards.md R350), with the default
parameters of 00_scope.md R7. No cell is listed: an unlisted address reads as construction leaves it.
The last three fields are the model's own, DESIGN CHOICE (log 1, log 3, log 8). -/
def State.reset : State where
  mem     := []
  V       := Vector.replicate 16 0
  I       := 0
  pc      := 0x200
  stack   := Vector.replicate 16 0
  sp      := 0
  DT      := 0
  ST      := 0
  disp    := Vector.replicate 32 (Vector.replicate 64 false)
  keys    := Vector.replicate 16 false
  run     := .ready
  keyEdge := Vector.replicate 16 false
  cfg     := Config.default
  sched   := []
  draws   := 0
  outputs := []

end Sys2Proof.Machine
end

