-- ==== Sys2Proof/Machine/Ops.lean ====
section
/-! DEFINITION. The named operations over memory, registers, the stack and the run state, and taking a fault. -/

namespace Sys2Proof.Machine

/-- `ADDR_MAX` (00_scope.md R6). -/
def addrMax : Nat := 0xFFF

/-- `FONT_BASE` (00_scope.md R6). -/
def fontBase : Nat := 0x050

/-- `PROGRAM_BASE` (00_scope.md R6). -/
def programBase : Nat := 0x200

/-- `ROM_MAX` (00_scope.md R6). -/
def romMax : Nat := 3584

/-- `InRange(a)`, on a natural that is never wrapped or masked (20_memory.md R63). -/
def inRange (a : Nat) : Bool := decide (a ≤ addrMax)

/-! ### Memory -/

/-- What an address that no cell lists reads as: the byte construction leaves there (10_state.md R47),
with the default `FONT` in 0x050..0x09F. -/
def Memory.unlisted (a : Nat) : Byte :=
  if h : fontBase ≤ a ∧ a < fontBase + 80 then Config.standardFont[a - fontBase] else 0

/-- The canonical form: addresses strictly rising and in range, and no cell that holds what its address
would read as unlisted. -/
abbrev Memory.wf (m : Memory) : Prop :=
  m.Pairwise (fun c d => c.1 < d.1) ∧ ∀ c ∈ m, c.1 ≤ addrMax ∧ c.2 ≠ Memory.unlisted c.1

/-- `MemRead(a, 1)` (20_memory.md R76). -/
def Memory.read : Memory → Nat → Byte
  | [], a => Memory.unlisted a
  | (k, b) :: m, a => if k = a then b else Memory.read m a

/-- A cell in front of later cells, left out where it says only what its address reads as unlisted. -/
def Memory.cons (a : Nat) (v : Byte) (m : Memory) : Memory :=
  if v = Memory.unlisted a then m else (a, v) :: m

/-- `MemWrite(a, 1, v)` (20_memory.md R76); every caller has checked `inRange a` first (00_scope.md R11). -/
def Memory.write : Memory → Nat → Byte → Memory
  | [], a, v => Memory.cons a v []
  | (k, b) :: m, a, v =>
    if a < k then Memory.cons a v ((k, b) :: m)
    else if a = k then Memory.cons a v m
    else (k, b) :: Memory.write m a v

/-- Bytes written at ascending addresses from a (20_memory.md R64). -/
def Memory.writeBytes : Memory → Nat → List Byte → Memory
  | m, _, [] => m
  | m, a, b :: bs => Memory.writeBytes (Memory.write m a b) (a + 1) bs

/-- The cells of bytes that stand at ascending addresses from a. -/
def Memory.ofBytes : Nat → List Byte → Memory
  | _, [] => []
  | a, b :: bs => Memory.cons a b (Memory.ofBytes (a + 1) bs)

/-- An accepted load: 0x200..0xFFF hold the image and then zeros, all else is kept
(60_exceptions.md R331). An unlisted address from 0x200 on reads 0. -/
def Memory.load (m : Memory) (rom : List Byte) : Memory :=
  m.filter (fun c => decide (c.1 < programBase)) ++ Memory.ofBytes programBase rom

/-- One byte of the state's memory. -/
def State.readByte (s : State) (a : Nat) : Byte := Memory.read s.mem a

/-- The byte written, nothing else changed. -/
def State.writeBytes (s : State) (a : Nat) (bs : List Byte) : State :=
  { s with mem := Memory.writeBytes s.mem a bs }

/-! ### Registers, program counter, stack -/

/-- The flag register VF (10_state.md R32). -/
def VF : Digit := 0xF

/-- `V[x]` (00_scope.md R10). -/
def State.getV (s : State) (x : Digit) : Byte := s.V[x.toNat]'x.isLt

/-- `V[x] <- b` (00_scope.md R10). -/
def State.setV (s : State) (x : Digit) (b : Byte) : State :=
  { s with V := s.V.set x.toNat b x.isLt }

/-- The whole register file written at once. -/
def State.setRegs (s : State) (v : Vector Byte 16) : State := { s with V := v }

/-- `DT <- b`. -/
def State.setDT (s : State) (b : Byte) : State := { s with DT := b }

/-- `ST <- b`. -/
def State.setST (s : State) (b : Byte) : State := { s with ST := b }

/-- The display written whole. -/
def State.setDisp (s : State) (d : Display) : State := { s with disp := d }

/-- One more draw has been taken (00_scope.md R8, log 3). -/
def State.countDraw (s : State) : State := { s with draws := s.draws + 1 }

/-- `I <- w`. -/
def State.setI (s : State) (w : Word) : State := { s with I := w }

/-- `pc <- w`. -/
def State.setPc (s : State) (w : Word) : State := { s with pc := w }

/-- The fetch's advance of the pc by 2 (40_engine.md R102). -/
def State.advance (s : State) : State := { s with pc := s.pc + 2 }

/-- `Skip()`, after the fetch's advance (41_control_flow.md R130). -/
def State.skip (s : State) : State := { s with pc := s.pc + 2 }

/-- `Skip()` where the condition holds. -/
def State.skipIf (s : State) (c : Bool) : State := if c then s.skip else s

/-- A push of a return address; none when 16 entries are in use (41_control_flow.md R134). -/
def State.push (s : State) (w : Word) : Option State :=
  if h : s.sp.val < 16 then
    some { s with stack := s.stack.set s.sp.val w h, sp := ⟨s.sp.val + 1, by omega⟩ }
  else none

/-- A pop: the most recent return address and the state without it; none when the stack is empty. The
entry is left as it is (41_control_flow.md R132). -/
def State.pop (s : State) : Option (Word × State) :=
  if h : s.sp.val = 0 then none
  else some (s.stack[s.sp.val - 1]'(by omega), { s with sp := ⟨s.sp.val - 1, by omega⟩ })

/-! ### Outputs -/

/-- An output event is emitted (60_exceptions.md R330). -/
def State.emit (s : State) (o : Output) : State := { s with outputs := o :: s.outputs }

/-- The output `sound_active` (60_exceptions.md R334). -/
def State.soundActive (s : State) : Bool := decide (s.ST.toNat > 0)

/-- The output `disp`, the snapshot between steps (44_display.md R235). -/
def State.snapshot (s : State) : Display := s.disp

/-- The output `status`: the run state, with the fault record in it (60_exceptions.md R330). -/
def State.status (s : State) : RunState := s.run

/-! ### Taking a fault -/

/-- The numeric code of a cause (60_exceptions.md R300). -/
def FaultCause.code : FaultCause → Nat
  | .fetchOutOfRange => 1
  | .memOutOfRange _ => 2
  | .stackOverflow => 3
  | .stackUnderflow => 4
  | .unknownOpcode => 5
  | .keyIndexOutOfRange _ => 6

/-- `raise` (00_scope.md R12, 60_exceptions.md R301 and R303), on the state BEFORE the step: the record
takes the pc of the faulting instruction, the run halts, and nothing else changes. -/
def State.raise (s : State) (cause : FaultCause) (opcode : Option Word) : State :=
  { s with run := .halted (.fault { cause := cause, addr := s.pc, opcode := opcode }) }

/-- `raise` by the execute phase of an instruction: the opcode recorded is its word (log 13). -/
def State.raiseFor (s : State) (i : Instr) (cause : FaultCause) : State :=
  s.raise cause (some i.encode)

/-! ### Construction -/

/-- Construction with given parameters (70_reset_and_hazards.md R350): as `State.reset`, with the
parameter `FONT` in 0x050..0x09F (10_state.md R45). -/
def State.construct (c : Config) : State :=
  { State.reset with cfg := c, mem := Memory.ofBytes fontBase c.font.toList }

end Sys2Proof.Machine
end

