-- ==== Sys2Proof/Machine/Flags.lean ====
section
/-! DEFINITION. The flags: every value a flag-producing instruction writes into VF (10_state.md R34), and the write
itself, made last (R33). -/

namespace Sys2Proof.Machine

/-- A flag as the byte VF takes, 1 or 0 (10_state.md R34). -/
def flagByte (f : Bool) : Byte := if f then 1 else 0

/-- The flag write, made after every other register write (10_state.md R33). -/
def State.setFlag (s : State) (f : Bool) : State := s.setV VF (flagByte f)

/-- The result into V[x] and then the flag into VF (10_state.md R33). -/
def State.setVThenFlag (s : State) (x : Digit) (b : Byte) (f : Bool) : State :=
  (s.setV x b).setFlag f

/-- Carry of an addition: the unwrapped sum exceeds 255 (42_alu.md R167). -/
def carryOut (a b : Byte) : Bool := decide (a.toNat + b.toNat > 255)

/-- No borrow in a - b: a is at least b before the subtraction (42_alu.md R168, R170). -/
def noBorrow (a b : Byte) : Bool := decide (a.toNat ≥ b.toNat)

/-- The bit a right shift moves out, bit 0 (42_alu.md R169). -/
def bitOutRight (a : Byte) : Bool := a.getLsbD 0

/-- The bit a left shift moves out, bit 7 (42_alu.md R171). -/
def bitOutLeft (a : Byte) : Bool := a.getLsbD 7

end Sys2Proof.Machine
end

