-- ==== Sys2Proof/Machine/Operands.lean ====
section
/-! DEFINITION. The operand forms: immediates, effective addresses, the key index, the sprite's place. -/

namespace Sys2Proof.Machine

/-- `nnn` as a 16-bit address, zero-extended (30_encoding.md R83). -/
def address (nnn : Addr12) : Word := nnn.setWidth 16

/-- A register's value as a 16-bit number, zero-extended (41_control_flow.md R139, 43_index_memory.md R202). -/
def extend (b : Byte) : Word := b.setWidth 16

/-- `ea(k) = I + k` on naturals (43_index_memory.md R200). -/
def State.ea (s : State) (k : Nat) : Nat := s.I.toNat + k

/-- The highest address an access of n bytes at I touches, n at least 1 (43_index_memory.md R200). -/
def State.lastAddress (s : State) (n : Nat) : Nat := s.ea (n - 1)

/-- The check made before any access of n bytes at I (20_memory.md R77). An access of no byte checks
nothing (44_display.md R232). -/
def State.spanInRange (s : State) (n : Nat) : Bool :=
  n == 0 || inRange (s.lastAddress n)

/-- The n bytes at I, in ascending order. -/
def State.bytesAtI (s : State) (n : Nat) : List Byte :=
  (List.range n).map fun k => s.readByte (s.ea k)

/-- V[0] to V[x], in ascending order (43_index_memory.md R205). -/
def State.regsUpTo (s : State) (x : Digit) : List Byte :=
  s.V.toList.take (x.toNat + 1)

/-- `KeyIndex(v)`; none where the policy makes it a fault (45_keypad_timer_ops.md R260). -/
def keyIndex (p : KeyIndexPolicy) (v : Byte) : Option Digit :=
  if v.toNat ≤ 0xF then some (v.setWidth 4)
  else match p with
    | .fault => none
    | .lowNibble => some (v.setWidth 4)

/-- `keys[k]` (10_state.md R41). -/
def State.keyDown (s : State) (k : Digit) : Bool := s.keys[k.toNat]'k.isLt

/-- The address of the glyph of a value's low nibble (43_index_memory.md R203). -/
def glyphAddress (v : Byte) : Word :=
  BitVec.ofNat 16 (fontBase + 5 * (v.toNat % 16))

/-- The three decimal digits, hundreds first (43_index_memory.md R204). -/
def bcdDigits (v : Byte) : List Byte :=
  [BitVec.ofNat 8 (v.toNat / 100), BitVec.ofNat 8 (v.toNat / 10 % 10), BitVec.ofNat 8 (v.toNat % 10)]

/-- The sum Fx1E leaves in I, reduced as `FX1E_WRAP` says (43_index_memory.md R202). -/
def indexSum (m : IndexWrap) (i : Word) (v : Byte) : Word :=
  match m with
  | .mod65536 => i + extend v
  | .mod4096 => BitVec.ofNat 16 ((i.toNat + v.toNat) % 4096)

/-- I after Fx55 or Fx65 (43_index_memory.md R205, R206): unchanged, or past the last byte where
`LOADSTORE_INCREMENTS_I` is set. -/
def indexAfter (increments : Bool) (i : Word) (x : Digit) : Word :=
  if increments then BitVec.ofNat 16 (i.toNat + x.toNat + 1) else i

/-- The sprite's first column, V[x] mod 64 (44_display.md R232). -/
def startColumn (v : Byte) : Nat := v.toNat % 64

/-- The sprite's first row, V[y] mod 32 (44_display.md R232). -/
def startRow (v : Byte) : Nat := v.toNat % 32

end Sys2Proof.Machine
end

