-- ==== Sys2Proof/Machine/Alu.lean ====
section
/-! DEFINITION. Register loads and the ALU (42_alu.md). Operands are read from the state before any write; a flag is
written last. -/

namespace Sys2Proof.Machine

/-- 6xnn (42_alu.md R161). -/
def execLdImm (x : Digit) (nn : Byte) (s : State) : Result :=
  .next (s.advance.setV x nn)

/-- 7xnn; no flag (42_alu.md R162). -/
def execAddImm (x : Digit) (nn : Byte) (s : State) : Result :=
  .next (s.advance.setV x (s.getV x + nn))

/-- 8xy0 (42_alu.md R163). -/
def execLdReg (x y : Digit) (s : State) : Result :=
  .next (s.advance.setV x (s.getV y))

/-- 8xy1; VF is not written as a flag (42_alu.md R164). -/
def execOrReg (x y : Digit) (s : State) : Result :=
  .next (s.advance.setV x (s.getV x ||| s.getV y))

/-- 8xy2; VF is not written as a flag (42_alu.md R165). -/
def execAndReg (x y : Digit) (s : State) : Result :=
  .next (s.advance.setV x (s.getV x &&& s.getV y))

/-- 8xy3; VF is not written as a flag (42_alu.md R166). -/
def execXorReg (x y : Digit) (s : State) : Result :=
  .next (s.advance.setV x (s.getV x ^^^ s.getV y))

/-- 8xy4 (42_alu.md R167). -/
def execAddReg (x y : Digit) (s : State) : Result :=
  .next (s.advance.setVThenFlag x (s.getV x + s.getV y) (carryOut (s.getV x) (s.getV y)))

/-- 8xy5 (42_alu.md R168). -/
def execSubReg (x y : Digit) (s : State) : Result :=
  .next (s.advance.setVThenFlag x (s.getV x - s.getV y) (noBorrow (s.getV x) (s.getV y)))

/-- 8xy6; the field y is not read (42_alu.md R169, 30_encoding.md R86). -/
def execShr (x _y : Digit) (s : State) : Result :=
  .next (s.advance.setVThenFlag x (s.getV x >>> 1) (bitOutRight (s.getV x)))

/-- 8xy7 (42_alu.md R170). -/
def execSubn (x y : Digit) (s : State) : Result :=
  .next (s.advance.setVThenFlag x (s.getV y - s.getV x) (noBorrow (s.getV y) (s.getV x)))

/-- 8xyE; the field y is not read (42_alu.md R171, 30_encoding.md R86). -/
def execShl (x _y : Digit) (s : State) : Result :=
  .next (s.advance.setVThenFlag x (s.getV x <<< 1) (bitOutLeft (s.getV x)))

/-- Cxnn; the random byte is a fresh draw (42_alu.md R172, log 3). -/
def execRnd (x : Digit) (nn : Byte) (s : State) : Result :=
  .next (s.advance.setV x (nn &&& Config.rand s.draws)).countDraw

end Sys2Proof.Machine
end

