-- ==== Sys2Proof/Machine/ControlFlow.lean ====
section
/-! DEFINITION. Control flow and skips (41_control_flow.md). Each meaning takes the state BEFORE the fetch, whose pc
is the instruction's address, and makes the fetch's advance first (log 13). -/

namespace Sys2Proof.Machine

/-- 00EE (41_control_flow.md R132). -/
def execRet (s : State) : Result :=
  match s.advance.pop with
  | none => .next (s.raiseFor .ret .stackUnderflow)
  | some (target, t) => .next (t.setPc target)

/-- 1nnn (41_control_flow.md R133). -/
def execJp (nnn : Addr12) (s : State) : Result :=
  .next (s.advance.setPc (address nnn))

/-- 2nnn; the value pushed is the pc after the fetch's advance (41_control_flow.md R134). -/
def execCall (nnn : Addr12) (s : State) : Result :=
  match s.advance.push s.advance.pc with
  | none => .next (s.raiseFor (.call nnn) .stackOverflow)
  | some t => .next (t.setPc (address nnn))

/-- 3xnn (41_control_flow.md R135). -/
def execSeImm (x : Digit) (nn : Byte) (s : State) : Result :=
  .next (s.advance.skipIf (s.getV x == nn))

/-- 4xnn (41_control_flow.md R136). -/
def execSneImm (x : Digit) (nn : Byte) (s : State) : Result :=
  .next (s.advance.skipIf (s.getV x != nn))

/-- 5xy0 (41_control_flow.md R137). -/
def execSeReg (x y : Digit) (s : State) : Result :=
  .next (s.advance.skipIf (s.getV x == s.getV y))

/-- 9xy0 (41_control_flow.md R138). -/
def execSneReg (x y : Digit) (s : State) : Result :=
  .next (s.advance.skipIf (s.getV x != s.getV y))

/-- Bnnn; always V[0], never V[x] (41_control_flow.md R139). -/
def execJpV0 (nnn : Addr12) (s : State) : Result :=
  .next (s.advance.setPc (address nnn + extend (s.getV 0)))

end Sys2Proof.Machine
end

