-- ==== Sys2Proof/Machine/Display.lean ====
section
/-! DEFINITION. The framebuffer, the sprite draw and the collision detector (44_display.md). -/

namespace Sys2Proof.Machine

/-- Every pixel off (44_display.md R231). -/
def Display.clear : Display := Vector.replicate 32 (Vector.replicate 64 false)

/-- `disp[r][c]` (10_state.md R40). -/
def Display.get (d : Display) (r : Fin 32) (c : Fin 64) : Bool := d[r][c]

/-- `disp[r][c] <- not disp[r][c]` (44_display.md R232). -/
def Display.toggle (d : Display) (r : Fin 32) (c : Fin 64) : Display :=
  d.set r.val (d[r].set c.val (!d[r][c]))

/-- The pixel a set sprite bit at column c and row r falls on, none where it is clipped
(44_display.md R232, R234). -/
def pixelAt (edge : DrawEdge) (r c : Nat) : Option (Fin 32 × Fin 64) :=
  match edge with
  | .clip => if h : r < 32 ∧ c < 64 then some (⟨r, h.1⟩, ⟨c, h.2⟩) else none
  | .wrap => some (⟨r % 32, by omega⟩, ⟨c % 64, by omega⟩)

/-- A draw in progress: the display so far, and `collide` so far (44_display.md R232). -/
abbrev Drawing := Display × Bool

/-- A set sprite bit at column c and row r: the pixel is XORed, and going from on to off is a collision
(44_display.md R232, R233). -/
def drawBit (edge : DrawEdge) (r c : Nat) (p : Drawing) : Drawing :=
  match pixelAt edge r c with
  | none => p
  | some (r, c) => (Display.toggle p.1 r c, p.2 || Display.get p.1 r c)

/-- The 8 bits of a sprite byte, bit 7 leftmost, at row r from column c (44_display.md R230, R232). -/
def drawByte (edge : DrawEdge) (r c : Nat) (b : Byte) (p : Drawing) : Drawing :=
  (List.range 8).foldl
    (fun p col => if b.getLsbD (7 - col) then drawBit edge r (c + col) p else p) p

/-- The sprite's bytes, one row each, from row r and column c (44_display.md R232). -/
def drawRows (edge : DrawEdge) (c : Nat) : Nat → List Byte → Drawing → Drawing
  | _, [], p => p
  | r, b :: bs, p => drawRows edge c (r + 1) bs (drawByte edge r c b p)

/-- 00E0 (44_display.md R231). -/
def execCls (s : State) : Result :=
  .next (s.advance.setDisp Display.clear)

/-- Dxyn; the coordinates are read before VF is written (44_display.md R232). -/
def execDrw (x y n : Digit) (s : State) : Result :=
  if s.spanInRange n.toNat then
    let p := drawRows s.cfg.drawEdge (startColumn (s.getV x)) (startRow (s.getV y))
      (s.bytesAtI n.toNat) (s.disp, false)
    .next ((s.advance.setDisp p.1).setFlag p.2)
  else .next (s.raiseFor (.drw x y n) (.memOutOfRange (s.lastAddress n.toNat)))

end Sys2Proof.Machine
end

