-- ==== Sys2Proof/Machine/IndexMemory.lean ====
section
/-! DEFINITION. The index register and memory instructions (43_index_memory.md). -/

namespace Sys2Proof.Machine

/-- Annn (43_index_memory.md R201). -/
def execLdI (nnn : Addr12) (s : State) : Result :=
  .next (s.advance.setI (address nnn))

/-- Fx1E; no flag, no fault (43_index_memory.md R202). -/
def execAddI (x : Digit) (s : State) : Result :=
  .next (s.advance.setI (indexSum s.cfg.fx1eWrap s.I (s.getV x)))

/-- Fx29 (43_index_memory.md R203). -/
def execLdF (x : Digit) (s : State) : Result :=
  .next (s.advance.setI (glyphAddress (s.getV x)))

/-- Fx33 (43_index_memory.md R204). -/
def execLdB (x : Digit) (s : State) : Result :=
  if s.spanInRange 3 then .next (s.advance.writeBytes s.I.toNat (bcdDigits (s.getV x)))
  else .next (s.raiseFor (.ldB x) (.memOutOfRange (s.lastAddress 3)))

/-- Fx55 (43_index_memory.md R205). -/
def execStRegs (x : Digit) (s : State) : Result :=
  if s.spanInRange (x.toNat + 1) then
    .next ((s.advance.writeBytes s.I.toNat (s.regsUpTo x)).setI
      (indexAfter s.cfg.loadStoreIncrementsI s.I x))
  else .next (s.raiseFor (.stRegs x) (.memOutOfRange (s.lastAddress (x.toNat + 1))))

/-- V[0] to V[x] taken from the bytes at I, the other registers kept (43_index_memory.md R206). -/
def State.regsFromMemory (s : State) (x : Digit) : Vector Byte 16 :=
  Vector.ofFn fun k => if k.val ≤ x.toNat then s.readByte (s.ea k.val) else s.V[k]

/-- Fx65 (43_index_memory.md R206). -/
def execLdRegs (x : Digit) (s : State) : Result :=
  if s.spanInRange (x.toNat + 1) then
    .next ((s.advance.setRegs (s.regsFromMemory x)).setI
      (indexAfter s.cfg.loadStoreIncrementsI s.I x))
  else .next (s.raiseFor (.ldRegs x) (.memOutOfRange (s.lastAddress (x.toNat + 1))))

end Sys2Proof.Machine
end

