-- ==== Sys2Proof/Machine/KeypadTimer.lean ====
section
/-! DEFINITION. The keypad and timer instructions, and the wait that Fx0A enters (45_keypad_timer_ops.md). -/

namespace Sys2Proof.Machine

/-- A skip on the state of the key V[x] names, or the fault `KEY_INDEX_OUT_OF_RANGE`
(45_keypad_timer_ops.md R260 to R262). -/
def State.skipOnKey (s : State) (i : Instr) (x : Digit) (pressed : Bool) : State :=
  match keyIndex s.cfg.keyIndexPolicy (s.getV x) with
  | none => s.raiseFor i (.keyIndexOutOfRange (s.getV x))
  | some k => s.advance.skipIf (s.keyDown k == pressed)

/-- Ex9E (45_keypad_timer_ops.md R261). -/
def execSkp (x : Digit) (s : State) : Result :=
  .next (s.skipOnKey (.skp x) x true)

/-- ExA1 (45_keypad_timer_ops.md R262). -/
def execSknp (x : Digit) (s : State) : Result :=
  .next (s.skipOnKey (.sknp x) x false)

/-- Fx07 (45_keypad_timer_ops.md R266). -/
def execLdVxDT (x : Digit) (s : State) : Result :=
  .next (s.advance.setV x s.DT)

/-- No key has an edge latched (10_state.md R44). -/
def noEdges : KeyFlags := Vector.replicate 16 false

/-- The wait for a key press begins: no edge is latched (45_keypad_timer_ops.md R263). -/
def State.beginWait (s : State) (x : Digit) : State :=
  { s with keyEdge := noEdges, run := .awaitingKey x }

/-- Fx0A: the wait begins; V[x] is written at its completion (45_keypad_timer_ops.md R263). -/
def execLdVxK (x : Digit) (s : State) : Result :=
  .next (s.advance.beginWait x)

/-- Fx15 (45_keypad_timer_ops.md R267). -/
def execLdDTVx (x : Digit) (s : State) : Result :=
  .next (s.advance.setDT (s.getV x))

/-- Fx18 (45_keypad_timer_ops.md R268). -/
def execLdSTVx (x : Digit) (s : State) : Result :=
  .next (s.advance.setST (s.getV x))

/-- The keys whose edge is latched, the set E of 45_keypad_timer_ops.md R264, in rising order. -/
def State.edgeKeys (s : State) : List Digit :=
  ((List.range 16).map (BitVec.ofNat 4)).filter fun k => s.keyEdge[k.toNat]'k.isLt

/-- The wait completes with key k (45_keypad_timer_ops.md R264). -/
def State.completeWait (s : State) (x k : Digit) : State :=
  { (s.setV x (k.setWidth 8)).countDraw with keyEdge := noEdges, run := .running }

/-- The await-completion step of `AwaitingKey(x)`: with no edge latched it is not enabled and nothing
changes; else it completes with the member of E that the draw `KEY_CHOICE` takes
(45_keypad_timer_ops.md R264, log 4). -/
def State.awaitStep (s : State) (x : Digit) : State :=
  match s.edgeKeys with
  | [] => s
  | k :: ks =>
    s.completeWait x ((k :: ks)[Config.keyChoice s.draws % (ks.length + 1)]'(by
      simpa using Nat.mod_lt _ (Nat.succ_pos _)))

end Sys2Proof.Machine
end

