-- ==== Sys2Proof/Machine/HostEvents.lean ====
section
/-! DEFINITION. The timer engine and the events of the host (60_exceptions.md). An event in a run state that does
not enable it leaves the machine as it is (log 7). -/

namespace Sys2Proof.Machine

/-- One decrement, clamped at 0 (60_exceptions.md R321). -/
def countDown (b : Byte) : Byte := if b.toNat > 0 then b - 1 else b

/-- `Tick()` (60_exceptions.md R321). -/
def State.tickTimers (s : State) : State :=
  { s with DT := countDown s.DT, ST := countDown s.ST }

/-- A tick event, enabled in `Running` and `AwaitingKey(_)` (60_exceptions.md R322). -/
def State.tick (s : State) : State :=
  match s.run with
  | .running => s.tickTimers
  | .awaitingKey _ => s.tickTimers
  | .ready => s
  | .halted _ => s

/-- The start event, accepted only in `Ready` (60_exceptions.md R335). -/
def State.start (s : State) : State :=
  match s.run with
  | .ready => { s with run := .running }
  | .running => s
  | .awaitingKey _ => s
  | .halted _ => s

/-- The stop event (60_exceptions.md R308); a second stop changes nothing (R304). -/
def State.stop (s : State) : State :=
  match s.run with
  | .ready => { s with run := .halted .stopped }
  | .running => { s with run := .halted .stopped }
  | .awaitingKey _ => { s with run := .halted .stopped }
  | .halted _ => s

/-- The load event, accepted only in `Ready` and only up to `ROM_MAX` bytes (60_exceptions.md R331). -/
def State.load (s : State) (rom : List Byte) : State :=
  match s.run with
  | .ready =>
    if rom.length ≤ romMax then
      { s with mem := Memory.load s.mem rom }.emit (.loadResult .ok)
    else s.emit (.loadResult .romTooLarge)
  | .running => s.emit (.loadResult .notReady)
  | .awaitingKey _ => s.emit (.loadResult .notReady)
  | .halted _ => s.emit (.loadResult .notReady)

/-- The keys after a key write (60_exceptions.md R333). -/
def keysAfter (keys : KeyFlags) (mask values : BitVec 16) : KeyFlags :=
  Vector.ofFn fun k => if mask.getLsbD k.val then values.getLsbD k.val else keys[k]

/-- The edges after a key write during a wait: one is latched for every key the write changes from not
pressed to pressed, and none is cleared (45_keypad_timer_ops.md R265). -/
def edgesAfter (edges keys : KeyFlags) (mask values : BitVec 16) : KeyFlags :=
  Vector.ofFn fun k =>
    edges[k] || (mask.getLsbD k.val && values.getLsbD k.val && !keys[k])

/-- The key-write event, accepted in every run state (60_exceptions.md R333). -/
def State.keyWrite (s : State) (mask values : BitVec 16) : State :=
  let t := { s with keys := keysAfter s.keys mask values }
  match s.run with
  | .awaitingKey _ => { t with keyEdge := edgesAfter s.keyEdge s.keys mask values }
  | .ready => t
  | .running => t
  | .halted _ => t

end Sys2Proof.Machine
end

