-- ==== Sys2Proof/Machine/Engine.lean ====
section
/-! DEFINITION. The engine: fetch, decode, the unknown-opcode policy, and one step of whichever agent has the turn
(40_engine.md). -/

namespace Sys2Proof.Machine

/-- The word at pc, big-endian; none where pc + 1 is out of range (40_engine.md R102). -/
def State.fetch (s : State) : Option Word :=
  if inRange (s.pc.toNat + 1) then
    some (Word.ofBytes (s.readByte s.pc.toNat) (s.readByte (s.pc.toNat + 1)))
  else none

/-- `UnknownOpcode(a, w)` (40_engine.md R108). -/
def State.unknownOpcode (s : State) (w : Word) : State :=
  match s.cfg.unknownPolicy with
  | .halt => s.raise .unknownOpcode (some w)
  | .skip => s.advance.emit (.diagnostic s.pc w)

/-- The instruction step (40_engine.md R103), its checks in the order of 60_exceptions.md R305. -/
def instructionStep (s : State) : Result :=
  match s.fetch with
  | none => .next (s.raise .fetchOutOfRange none)
  | some w =>
    match decode w with
    | .instr i => exec i s
    | .unknown w => .next (s.unknownOpcode w)

/-- The engine's turn (40_engine.md R100, R107): an instruction step in `Running`, the await-completion
step in `AwaitingKey(x)`, nothing in `Ready`; in `Halted` the run has ended (R110, log 6, log 7). -/
def engineStep (s : State) : Result :=
  match s.run with
  | .ready => .next s
  | .running => instructionStep s
  | .awaitingKey x => .next (s.awaitStep x)
  | .halted why => .fault (.runEnded why)

/-- One step of the agent the event names (40_engine.md R100, 60_exceptions.md R340). -/
def takeEvent (e : Event) (s : State) : Result :=
  match e with
  | .engine => engineStep s
  | .tick => .next s.tick
  | .start => .next s.start
  | .stop => .next s.stop
  | .load rom => .next (s.load rom)
  | .keyWrite mask values => .next (s.keyWrite mask values)

/-- The next event of the schedule, and the state with it taken off; the engine has the turn where the
schedule names nothing more (log 1). -/
def State.nextEvent (s : State) : Event × State :=
  match s.sched with
  | [] => (.engine, s)
  | e :: rest => (e, { s with sched := rest })

/-- The address a placed word goes to: the pc where a fetch can read there, else the reset pc (log 12). -/
def State.placePc (s : State) : Word :=
  if inRange (s.pc.toNat + 1) then s.pc else State.reset.pc

/-- The schedule with the engine first: unchanged where it names nothing (log 12). -/
def engineFirst (sched : List Event) : List Event :=
  match sched with
  | [] => []
  | e :: rest => .engine :: e :: rest

/-- The state with word w stored where the next step fetches, the engine running and next to move
(log 12). -/
def State.placeWord (s : State) (w : Word) : State :=
  { s with
    pc := s.placePc
    run := .running
    sched := engineFirst s.sched
    mem := Memory.writeBytes s.mem s.placePc.toNat [w.hi, w.lo] }

end Sys2Proof.Machine
end

