-- ==== Sys2Proof/Machine/Step.lean ====
section
/-! DEFINITION. One step of the machine, and the placing of one instruction where the next step fetches it. -/

namespace Sys2Proof.Machine

/-- One atomic step: the schedule's next event is taken (40_engine.md R100, R101). -/
def step (s : State) : Host.Outcome State Fault Refusal :=
  takeEvent s.nextEvent.1 s.nextEvent.2

/-- s with the instruction whose bits are w, numbered as the opcode table numbers them, where `step`
fetches and runs it next (log 12). -/
def State.withFetchWord (s : State) (nbits w : Nat) : State :=
  s.placeWord (BitVec.ofNat 16 (w % 2 ^ nbits))

end Sys2Proof.Machine
end

