-- ==== Sys2Proof/Safety.lean ====
section
/-! DEFINITION. The terms in which claims are stated: what two states share, which pieces of state an instruction
may write (10_state.md R48), when a run has ended or failed (40_engine.md R110), and the invariants. -/

namespace Sys2Proof.Machine

/-- The pieces of the state. -/
inductive Piece where
  | mem | V | I | pc | stack | sp | DT | ST | disp | keys | run | keyEdge
  | cfg | sched | draws | outputs
deriving DecidableEq, Repr

/-- t holds in this piece what s holds: memory byte by byte through the model's read, the registers one
by one through theirs, the rest as data. -/
def Piece.same (p : Piece) (s t : State) : Prop :=
  match p with
  | .mem     => ∀ a, t.readByte a = s.readByte a
  | .V       => ∀ k, t.getV k = s.getV k
  | .I       => t.I = s.I
  | .pc      => t.pc = s.pc
  | .stack   => t.stack = s.stack
  | .sp      => t.sp = s.sp
  | .DT      => t.DT = s.DT
  | .ST      => t.ST = s.ST
  | .disp    => t.disp = s.disp
  | .keys    => t.keys = s.keys
  | .run     => t.run = s.run
  | .keyEdge => t.keyEdge = s.keyEdge
  | .cfg     => t.cfg = s.cfg
  | .sched   => t.sched = s.sched
  | .draws   => t.draws = s.draws
  | .outputs => t.outputs = s.outputs

/-- Every piece of state but the listed ones is unchanged from s to t. -/
def SameExcept (changed : List Piece) (s t : State) : Prop :=
  ∀ p, p ∉ changed → p.same s t

/-- Every V register but the listed ones is unchanged from s to t. -/
def SameRegsExcept (written : List Digit) (s t : State) : Prop :=
  ∀ k, k ∉ written → t.getV k = s.getV k

/-- Every byte of memory outside the n bytes from address a is unchanged from s to t. -/
def SameBytesOutside (a n : Nat) (s t : State) : Prop :=
  ∀ b, (b < a ∨ a + n ≤ b) → t.readByte b = s.readByte b

/-- The pieces of state an instruction's step may write when it does not fault (10_state.md R48; the pc
by the fetch, and by the transfers and skips). The draw counter of Cxnn is the model's own. -/
def mayWrite : Instr → List Piece
  | .cls => [.pc, .disp]
  | .ret => [.pc, .sp]
  | .jp _ => [.pc]
  | .call _ => [.pc, .stack, .sp]
  | .seImm _ _ | .sneImm _ _ | .seReg _ _ | .sneReg _ _ => [.pc]
  | .ldImm _ _ | .addImm _ _ => [.pc, .V]
  | .ldReg _ _ | .orReg _ _ | .andReg _ _ | .xorReg _ _ => [.pc, .V]
  | .addReg _ _ | .subReg _ _ | .shr _ _ | .subn _ _ | .shl _ _ => [.pc, .V]
  | .ldI _ => [.pc, .I]
  | .jpV0 _ => [.pc]
  | .rnd _ _ => [.pc, .V, .draws]
  | .drw _ _ _ => [.pc, .V, .disp]
  | .skp _ | .sknp _ => [.pc]
  | .ldVxDT _ => [.pc, .V]
  | .ldVxK _ => [.pc, .run, .keyEdge]
  | .ldDTVx _ => [.pc, .DT]
  | .ldSTVx _ => [.pc, .ST]
  | .addI _ | .ldF _ => [.pc, .I]
  | .ldB _ => [.pc, .mem]
  | .stRegs _ => [.pc, .mem, .I]
  | .ldRegs _ => [.pc, .V, .I]

/-- The fault record, where the run has ended in a fault (10_state.md R46). -/
def State.faultRecord (s : State) : Option FaultRecord :=
  match s.run with
  | .halted (.fault r) => some r
  | _ => none

/-- The run has ended (40_engine.md R110). -/
def State.ended (s : State) : Prop := ∃ why, s.run = .halted why

/-- A run of k steps that reaches no fault: the premise of every claim about what a program computes
(40_engine.md R110). -/
def State.safeFor : Nat → State → Prop
  | 0, s => s.faultRecord = none
  | k + 1, s => s.faultRecord = none ∧ ∃ t, step s = .next t ∧ State.safeFor k t

/-- It is the engine's turn, and s' is the state it moves from: the schedule names the engine, or names
nothing more (log 1). -/
def State.engineTurn (s s' : State) : Prop :=
  (s.sched = [] ∧ s' = s) ∨ ∃ rest, s.sched = .engine :: rest ∧ s' = { s with sched := rest }

/-- The schedule's next event is e, and s' is the state it is taken from. -/
def State.eventTurn (s : State) (e : Event) (s' : State) : Prop :=
  ∃ rest, s.sched = e :: rest ∧ s' = { s with sched := rest }

/-- The highest value pc can take is 0x10FE, by Bnnn (41_control_flow.md R130, R131, R139). -/
def State.pcBounded (s : State) : Prop := s.pc.toNat ≤ 0x10FE

/-- Every return address in use is an address after a fetched call, at most 0x1000
(40_engine.md R102, 41_control_flow.md R134). -/
def State.returnsBounded (s : State) : Prop :=
  ∀ j (h : j < 16), j < s.sp.val → (s.stack[j]'h).toNat ≤ 0x1000

/-- No edge is latched outside a wait, until the run ends (10_state.md R44). -/
def State.edgesIdle (s : State) : Prop :=
  (s.run = .ready ∨ s.run = .running) → s.keyEdge = noEdges

/-- Before the start event the pc is the entry point, so the first instruction is fetched at 0x200
(60_exceptions.md R335). -/
def State.readyAtEntry (s : State) : Prop := s.run = .ready → s.pc = 0x200

/-- A recorded fault names the instruction the machine stands at: its address is the pc and its opcode
the word there, none where no word can be fetched (60_exceptions.md R301, R302). -/
def State.faultPrecise (s : State) : Prop :=
  ∀ r, s.faultRecord = some r → r.addr = s.pc ∧ r.opcode = s.fetch

/-- The invariant of the control state. -/
def State.controlInv (s : State) : Prop :=
  s.pcBounded ∧ s.returnsBounded ∧ s.edgesIdle ∧ s.readyAtEntry ∧ s.faultPrecise

/-- A set bit of the n-row sprite at I falls on pixel (r, c): the bit of row `row` and column `col` from
the start place, clipped or wrapped at the edges (44_display.md R232, R234). -/
def spriteCovers (s : State) (x y n : Digit) (r : Fin 32) (c : Fin 64) : Prop :=
  ∃ row < n.toNat, ∃ col < 8,
    (s.readByte (s.I.toNat + row)).getLsbD (7 - col) = true ∧
    match s.cfg.drawEdge with
    | .clip => r.val = (s.getV y).toNat % 32 + row ∧ c.val = (s.getV x).toNat % 64 + col
    | .wrap => r.val = ((s.getV y).toNat % 32 + row) % 32 ∧ c.val = ((s.getV x).toNat % 64 + col) % 64

/-- The instructions that write VF as a flag (10_state.md R34). -/
def producesFlag : Instr → Bool
  | .addReg _ _ | .subReg _ _ | .shr _ _ | .subn _ _ | .shl _ _ | .drw _ _ _ => true
  | .cls | .ret | .jp _ | .call _ | .seImm _ _ | .sneImm _ _ | .seReg _ _ | .sneReg _ _ => false
  | .ldImm _ _ | .addImm _ _ | .ldReg _ _ | .orReg _ _ | .andReg _ _ | .xorReg _ _ => false
  | .ldI _ | .jpV0 _ | .rnd _ _ | .skp _ | .sknp _ | .ldVxDT _ | .ldVxK _ | .ldDTVx _ => false
  | .ldSTVx _ | .addI _ | .ldF _ | .ldB _ | .stRegs _ | .ldRegs _ => false

/-- The instruction names V[k] as an ordinary result of its step (10_state.md R31, R32, R48). -/
def namesResult (k : Digit) : Instr → Bool
  | .ldImm x _ | .addImm x _ | .rnd x _ | .ldVxDT x => x == k
  | .ldReg x _ | .orReg x _ | .andReg x _ | .xorReg x _ => x == k
  | .addReg x _ | .subReg x _ | .shr x _ | .subn x _ | .shl x _ => x == k
  | .ldRegs x => decide (k.toNat ≤ x.toNat)
  | .cls | .ret | .jp _ | .call _ | .seImm _ _ | .sneImm _ _ | .seReg _ _ | .sneReg _ _ => false
  | .ldI _ | .jpV0 _ | .drw _ _ _ | .skp _ | .sknp _ | .ldVxK _ | .ldDTVx _ => false
  | .ldSTVx _ | .addI _ | .ldF _ | .ldB _ | .stRegs _ => false

/-- The instructions that write pc in their execute phase (40_engine.md R104). -/
def writesPc : Instr → Bool
  | .ret | .jp _ | .call _ | .jpV0 _ => true
  | .seImm _ _ | .sneImm _ _ | .seReg _ _ | .sneReg _ _ | .skp _ | .sknp _ => true
  | .cls | .ldImm _ _ | .addImm _ _ | .ldReg _ _ | .orReg _ _ | .andReg _ _ | .xorReg _ _ => false
  | .addReg _ _ | .subReg _ _ | .shr _ _ | .subn _ _ | .shl _ _ | .drw _ _ _ => false
  | .ldI _ | .rnd _ _ | .ldVxDT _ | .ldVxK _ | .ldDTVx _ | .ldSTVx _ => false
  | .addI _ | .ldF _ | .ldB _ | .stRegs _ | .ldRegs _ => false

/-- The cause an instruction's step faults with, by the table of 60_exceptions.md R300; none where the
table lists no fault for it. -/
def faultOf (i : Instr) (s : State) : Option FaultCause :=
  match i with
  | .ret => if s.sp.val = 0 then some .stackUnderflow else none
  | .call _ => if s.sp.val = 16 then some .stackOverflow else none
  | .drw _ _ n =>
    if n ≠ 0 ∧ s.I.toNat + n.toNat - 1 > 0xFFF then
      some (.memOutOfRange (s.I.toNat + n.toNat - 1)) else none
  | .ldB _ => if s.I.toNat + 2 > 0xFFF then some (.memOutOfRange (s.I.toNat + 2)) else none
  | .stRegs x | .ldRegs x =>
    if s.I.toNat + x.toNat > 0xFFF then some (.memOutOfRange (s.I.toNat + x.toNat)) else none
  | .skp x | .sknp x =>
    if (s.getV x).toNat > 0xF ∧ s.cfg.keyIndexPolicy = .fault then
      some (.keyIndexOutOfRange (s.getV x)) else none
  | .cls | .jp _ | .seImm _ _ | .sneImm _ _ | .seReg _ _ | .sneReg _ _ | .ldImm _ _ => none
  | .addImm _ _ | .ldReg _ _ | .orReg _ _ | .andReg _ _ | .xorReg _ _ | .addReg _ _ => none
  | .subReg _ _ | .shr _ _ | .subn _ _ | .shl _ _ | .ldI _ | .jpV0 _ | .rnd _ _ => none
  | .ldVxDT _ | .ldVxK _ | .ldDTVx _ | .ldSTVx _ | .addI _ | .ldF _ => none

/-- The transitions of the run state by one step, as 40_engine.md R109 lists them: from the state s, the
event taken, to the run state `r`. An engine's turn in `Running` enters a wait only on Fx0A, and for its x;
it halts only with a record of the instruction at pc; and a wait ends only with an edge latched. The run
state is otherwise unchanged. -/
def runTransition (s : State) (e : Event) (r : RunState) : Prop :=
  match s.run, e with
  | .ready, .start => r = .running
  | .ready, .stop | .running, .stop | .awaitingKey _, .stop => r = .halted .stopped
  | .running, .engine =>
    (r = .running ∧ ∀ w x, s.fetch = some w → decode w ≠ .instr (.ldVxK x)) ∨
    (∃ w x, s.fetch = some w ∧ decode w = .instr (.ldVxK x) ∧ r = .awaitingKey x) ∨
    ∃ c, r = .halted (.fault ⟨c, s.pc, s.fetch⟩)
  | .awaitingKey x, .engine =>
    (s.keyEdge = noEdges ∧ r = .awaitingKey x) ∨ (s.keyEdge ≠ noEdges ∧ r = .running)
  | from_, _ => r = from_

end Sys2Proof.Machine
end

