-- ==== Sys2Proof/Certificates/Slice0/Obligations.lean ====
section
/-! DEFINITION. The statements for the provers. -/

open Sys2Proof Sys2Proof.Machine

/-! ### Encoding -/

/-- Every instruction's word decodes to it, every operand at every value, and so do its two bytes, the
high one first, whatever bytes follow (30_encoding.md R81, R82, R85; 20_memory.md R64). -/
def Obligations.DecodeOfEncodeIsTheInstruction : Prop :=
  ∀ i : Instr, decode i.encode = .instr i ∧
    ∀ rest, decodeBytes (i.encode.hi :: i.encode.lo :: rest) = .word (.instr i) rest

/-- 30_encoding.md R84: a word matches exactly one row of the opcode map and decodes to that row's
instruction with the word's own fields (its encoding is the word again), or it matches none and decodes
to `Unknown(w)`. -/
def Obligations.DecodeFollowsTheOpcodeMap : Prop :=
  ∀ w : Word,
    (∃ i, decode w = .instr i ∧ i.encode = w ∧ i.row ∈ opcodeTable ∧ i.row.matchesWord w = true ∧
      ∀ r ∈ opcodeTable, r.matchesWord w = true → r = i.row) ∨
    (decode w = .unknown w ∧ ∀ r ∈ opcodeTable, r.matchesWord w = false)

/-- 30_encoding.md R87: the unmatched words are exactly these, family by family. -/
def Obligations.UnknownWordsAreThoseListed : Prop :=
  ∀ w : Word, decode w = .unknown w ↔
    (w.op = 0x0 ∧ w ≠ 0x00E0 ∧ w ≠ 0x00EE) ∨
    (w.op = 0x5 ∧ w.n ≠ 0) ∨
    (w.op = 0x8 ∧ w.n ∈ [0x8, 0x9, 0xA, 0xB, 0xC, 0xD, 0xF]) ∨
    (w.op = 0x9 ∧ w.n ≠ 0) ∨
    (w.op = 0xE ∧ w.nn ∉ [0x9E, 0xA1]) ∨
    (w.op = 0xF ∧ w.nn ∉ [0x07, 0x0A, 0x15, 0x18, 0x1E, 0x29, 0x33, 0x55, 0x65])

/-- A sanity statement: words of 95_test_vectors.md section 2.1 and of R85's patterns decode as listed. -/
def Obligations.ListedWordsDecode : Prop :=
  decode 0x00E0 = .instr .cls ∧ decode 0x00EE = .instr .ret ∧ decode 0x00E1 = .unknown 0x00E1 ∧
  decode 0x1234 = .instr (.jp 0x234) ∧ decode 0xB123 = .instr (.jpV0 0x123) ∧
  decode 0x5AB0 = .instr (.seReg 0xA 0xB) ∧ decode 0x8AB6 = .instr (.shr 0xA 0xB) ∧
  decode 0x8ABE = .instr (.shl 0xA 0xB) ∧ decode 0x7320 = .instr (.addImm 0x3 0x20) ∧
  decode 0xD015 = .instr (.drw 0x0 0x1 0x5) ∧ decode 0xEFA1 = .instr (.sknp 0xF) ∧
  decode 0xFF65 = .instr (.ldRegs 0xF) ∧ decode 0xF00A = .instr (.ldVxK 0x0)

/-! ### The step -/

/-- When it is the engine's turn in `Running` and the two bytes at pc decode to an instruction, the step
is `exec` of it on the state the turn is taken from, which differs from s in the schedule alone
(40_engine.md R102, R103). Every instruction is well formed by its type. -/
def Obligations.StepRunsTheDecodedInstruction : Prop :=
  ∀ (s s' : State) (i : Instr), s.engineTurn s' → s.run = .running → s.pc.toNat + 1 ≤ 0xFFF →
    decodeBytes [s.readByte s.pc.toNat, s.readByte (s.pc.toNat + 1)] = .word (.instr i) [] →
    step s = exec i s'

/-- A fetch at a pc whose second byte is past 0xFFF halts with the record FETCH_OUT_OF_RANGE and no
opcode; nothing else changes (40_engine.md R102). That the rest is kept is the spec's decision D4. -/
def Obligations.FetchPastMemoryHalts : Prop :=
  ∀ s s' : State, s.engineTurn s' → s.run = .running → s.pc.toNat + 1 > 0xFFF →
    step s = .next { s' with run := .halted (.fault ⟨.fetchOutOfRange, s.pc, none⟩) }

/-- A fetched word that is no instruction: under `halt` the run halts with UNKNOWN_OPCODE and nothing else
changes; under `skip` the pc passes it, a Diagnostic is emitted, and nothing else changes
(40_engine.md R108; the spec's decisions D4, D14; the output list is the model's own, log 8). -/
def Obligations.UnknownWordFollowsThePolicy : Prop :=
  ∀ (s s' : State) (w : Word), s.engineTurn s' → s.run = .running → s.pc.toNat + 1 ≤ 0xFFF →
    w = Word.ofBytes (s.readByte s.pc.toNat) (s.readByte (s.pc.toNat + 1)) → decode w = .unknown w →
    (s.cfg.unknownPolicy = .halt →
      step s = .next { s' with run := .halted (.fault ⟨.unknownOpcode, s.pc, some w⟩) }) ∧
    (s.cfg.unknownPolicy = .skip →
      step s = .next { s' with pc := s.pc + 2, outputs := .diagnostic s.pc w :: s.outputs })

/-- The engine executes nothing in `Ready`, and nothing in `AwaitingKey(x)` while no edge is latched: its
turn leaves the machine as it is (40_engine.md R100, R107; 45_keypad_timer_ops.md R264, the spec's decision
D11; that such a turn passes is the model's, log 7). -/
def Obligations.EngineIdlesWhenNotEnabled : Prop :=
  ∀ s s' : State, s.engineTurn s' →
    (s.run = .ready → step s = .next s') ∧
    (∀ x, s.run = .awaitingKey x → s.keyEdge = noEdges → step s = .next s')

/-- A word placed by `withFetchWord` runs at the very next step, on the placed state with its own
schedule (log 12: the model's stand-in for a load and a start). -/
def Obligations.PlacedWordRunsNext : Prop :=
  ∀ (s : State) (i : Instr), Memory.wf s.mem →
    step (s.withFetchWord 16 i.encode.toNat) =
      exec i { s.withFetchWord 16 i.encode.toNat with sched := s.sched }

/-! ### Memory -/

/-- 20_memory.md R76: a read gives the byte last written there, and a write at an address in range leaves
every other address as it was. -/
def Obligations.ReadAfterWrite : Prop :=
  ∀ (m : Memory) (a : Nat) (v : Byte), Memory.wf m → a ≤ 0xFFF →
    Memory.read (Memory.write m a v) a = v ∧
    ∀ b, b ≠ a → Memory.read (Memory.write m a v) b = Memory.read m b

/-- Two memories in canonical form that read the same at every address are the same data
(20_memory.md R60, R67). -/
def Obligations.MemoryIsDeterminedByItsBytes : Prop :=
  ∀ m m' : Memory, Memory.wf m → Memory.wf m' → (∀ a ≤ 0xFFF, Memory.read m a = Memory.read m' a) →
    m = m'

/-! ### Control flow -/

/-- 00EE: with an entry in use the most recent return address is popped into pc, the entry stays as it
is, and nothing else changes; with none the run halts with STACK_UNDERFLOW and nothing else changes
(41_control_flow.md R132; the fault's effect is the spec's decision D4). -/
def Obligations.ReturnPopsThePc : Prop :=
  ∀ s : State,
    (∀ h : 0 < s.sp.val, ∃ t, exec .ret s = .next t ∧
      t.pc = s.stack[s.sp.val - 1]'(by omega) ∧ t.sp.val = s.sp.val - 1 ∧ SameExcept [.pc, .sp] s t) ∧
    (s.sp.val = 0 →
      exec .ret s = .next { s with run := .halted (.fault ⟨.stackUnderflow, s.pc, some 0x00EE⟩) })

/-- 2nnn: with a free entry the address of the instruction after the call is pushed and pc is nnn; every
other entry and all else is unchanged; with 16 in use the run halts with STACK_OVERFLOW and nothing else
changes (41_control_flow.md R134; the fault's effect is the spec's decision D4). -/
def Obligations.CallPushesTheReturnAddress : Prop :=
  ∀ (s : State) (nnn : Addr12),
    (∀ h : s.sp.val < 16, ∃ t, exec (.call nnn) s = .next t ∧
      t.pc.toNat = nnn.toNat ∧ t.sp.val = s.sp.val + 1 ∧ t.stack[s.sp.val]'h = s.pc + 2 ∧
      (∀ j (hj : j < 16), j ≠ s.sp.val → t.stack[j]'hj = s.stack[j]'hj) ∧
      SameExcept [.pc, .stack, .sp] s t) ∧
    (s.sp.val = 16 →
      exec (.call nnn) s =
        .next { s with run := .halted (.fault ⟨.stackOverflow, s.pc, some (Word.ofNnn 0x2 nnn)⟩) })

/-- 1nnn (41_control_flow.md R133): the word 1nnn is the jump, pc is nnn and nothing else changes; a jump
to itself stays where it is, and after a jump to 0xFFF the next fetch finds no word. -/
def Obligations.JumpSetsThePc : Prop :=
  ∀ (s : State) (nnn : Addr12), decode (Word.ofNnn 0x1 nnn) = .instr (.jp nnn) ∧
    ∃ t, exec (.jp nnn) s = .next t ∧ t.pc.toNat = nnn.toNat ∧ SameExcept [.pc] s t ∧
      (nnn.toNat = s.pc.toNat → t = s) ∧ (nnn.toNat = 0xFFF → t.fetch = none)

/-- Bnnn (41_control_flow.md R139): the word Bnnn is the jump, pc is nnn plus V[0] with no wrap, and
nothing else changes; from a target of 0xFFF or above the next fetch finds no word. -/
def Obligations.JumpWithOffsetAddsV0 : Prop :=
  ∀ (s : State) (nnn : Addr12), decode (Word.ofNnn 0xB nnn) = .instr (.jpV0 nnn) ∧
    ∃ t, exec (.jpV0 nnn) s = .next t ∧ t.pc.toNat = nnn.toNat + (s.getV 0).toNat ∧
      SameExcept [.pc] s t ∧ (0xFFF ≤ nnn.toNat + (s.getV 0).toNat → t.fetch = none)

/-- 3xnn and 4xnn (41_control_flow.md R135, R136): pc passes the next word exactly when V[x] equals nn,
or exactly when it does not; nothing else changes. -/
def Obligations.SkipsOnAnImmediate : Prop :=
  ∀ (s : State) (x : Digit) (nn : Byte),
    decode (Word.ofXnn 0x3 x nn) = .instr (.seImm x nn) ∧
    decode (Word.ofXnn 0x4 x nn) = .instr (.sneImm x nn) ∧
    (∃ t, exec (.seImm x nn) s = .next t ∧ SameExcept [.pc] s t ∧
      (s.getV x = nn → t.pc = s.pc + 4) ∧ (s.getV x ≠ nn → t.pc = s.pc + 2)) ∧
    (∃ t, exec (.sneImm x nn) s = .next t ∧ SameExcept [.pc] s t ∧
      (s.getV x ≠ nn → t.pc = s.pc + 4) ∧ (s.getV x = nn → t.pc = s.pc + 2))

/-- 5xy0 and 9xy0 (41_control_flow.md R137, R138): pc passes the next word exactly when the registers are
equal, or exactly when they differ; nothing else changes; 5xyN and 9xyN with N not 0 are unknown. -/
def Obligations.SkipsOnARegister : Prop :=
  ∀ (s : State) (x y n : Digit),
    decode (Word.ofXyn 0x5 x y 0) = .instr (.seReg x y) ∧
    decode (Word.ofXyn 0x9 x y 0) = .instr (.sneReg x y) ∧
    (n ≠ 0 → decode (Word.ofXyn 0x5 x y n) = .unknown (Word.ofXyn 0x5 x y n) ∧
      decode (Word.ofXyn 0x9 x y n) = .unknown (Word.ofXyn 0x9 x y n)) ∧
    (∃ t, exec (.seReg x y) s = .next t ∧ SameExcept [.pc] s t ∧
      (s.getV x = s.getV y → t.pc = s.pc + 4) ∧ (s.getV x ≠ s.getV y → t.pc = s.pc + 2)) ∧
    (∃ t, exec (.sneReg x y) s = .next t ∧ SameExcept [.pc] s t ∧
      (s.getV x ≠ s.getV y → t.pc = s.pc + 4) ∧ (s.getV x = s.getV y → t.pc = s.pc + 2))

/-- 40_engine.md R104: an instruction that writes no pc of its own, and does not fault, leaves pc at the
next word. -/
def Obligations.FallThroughAdvancesByTwo : Prop :=
  ∀ (i : Instr) (s t : State), writesPc i = false → faultOf i s = none → exec i s = .next t →
    t.pc = s.pc + 2

/-! ### Registers and the ALU -/

/-- 6xnn and 8xy0 (42_alu.md R161, R163): V[x] takes nn, or V[y]; pc advances; nothing else changes. -/
def Obligations.LoadsSetTheRegister : Prop :=
  ∀ (s : State) (x y : Digit) (nn : Byte),
    decode (Word.ofXnn 0x6 x nn) = .instr (.ldImm x nn) ∧
    decode (Word.ofXyn 0x8 x y 0x0) = .instr (.ldReg x y) ∧
    (∃ t, exec (.ldImm x nn) s = .next t ∧ t.getV x = nn ∧ t.pc = s.pc + 2 ∧
      SameRegsExcept [x] s t ∧ SameExcept [.pc, .V] s t) ∧
    (∃ t, exec (.ldReg x y) s = .next t ∧ t.getV x = s.getV y ∧ t.pc = s.pc + 2 ∧
      SameRegsExcept [x] s t ∧ SameExcept [.pc, .V] s t)

/-- 7xnn (42_alu.md R162): V[x] is the sum modulo 256 and no other register, VF included, changes. -/
def Obligations.AddImmediateWrapsWithoutFlag : Prop :=
  ∀ (s : State) (x : Digit) (nn : Byte),
    decode (Word.ofXnn 0x7 x nn) = .instr (.addImm x nn) ∧
    ∃ t, exec (.addImm x nn) s = .next t ∧
      (t.getV x).toNat = ((s.getV x).toNat + nn.toNat) % 256 ∧ t.pc = s.pc + 2 ∧
      SameRegsExcept [x] s t ∧ SameExcept [.pc, .V] s t

/-- 8xy1, 8xy2, 8xy3: V[x] is the OR, AND or XOR bit by bit and no other register, VF included, changes
(42_alu.md R164 to R166; that VF is not reset is the spec's decision D32). -/
def Obligations.LogicWritesOnlyItsResult : Prop :=
  ∀ (s : State) (x y : Digit),
    (∃ t, exec (.orReg x y) s = .next t ∧ t.pc = s.pc + 2 ∧
      (∀ b < 8, (t.getV x).getLsbD b = ((s.getV x).getLsbD b || (s.getV y).getLsbD b)) ∧
      SameRegsExcept [x] s t ∧ SameExcept [.pc, .V] s t) ∧
    (∃ t, exec (.andReg x y) s = .next t ∧ t.pc = s.pc + 2 ∧
      (∀ b < 8, (t.getV x).getLsbD b = ((s.getV x).getLsbD b && (s.getV y).getLsbD b)) ∧
      SameRegsExcept [x] s t ∧ SameExcept [.pc, .V] s t) ∧
    (∃ t, exec (.xorReg x y) s = .next t ∧ t.pc = s.pc + 2 ∧
      (∀ b < 8, (t.getV x).getLsbD b = ((s.getV x).getLsbD b ^^ (s.getV y).getLsbD b)) ∧
      SameRegsExcept [x] s t ∧ SameExcept [.pc, .V] s t)

/-- 8xy4 (42_alu.md R167): VF is 1 when the unwrapped sum exceeds 255 and else 0, for x = 0xF too; V[x] is
the sum modulo 256 when x is not 0xF; nothing else changes. -/
def Obligations.AddSetsTheCarry : Prop :=
  ∀ (s : State) (x y : Digit),
    decode (Word.ofXyn 0x8 x y 0x4) = .instr (.addReg x y) ∧
    ∃ t, exec (.addReg x y) s = .next t ∧ t.pc = s.pc + 2 ∧
      (t.getV 0xF).toNat = (if (s.getV x).toNat + (s.getV y).toNat > 255 then 1 else 0) ∧
      (x ≠ 0xF → (t.getV x).toNat = ((s.getV x).toNat + (s.getV y).toNat) % 256) ∧
      SameRegsExcept [x, 0xF] s t ∧ SameExcept [.pc, .V] s t

/-- 8xy5 and 8xy7 (42_alu.md R168, R170): VF is 1 when there is no borrow and else 0, for x = 0xF too;
V[x] is the difference modulo 256 when x is not 0xF; nothing else changes. -/
def Obligations.SubtractsSetNoBorrow : Prop :=
  ∀ (s : State) (x y : Digit),
    decode (Word.ofXyn 0x8 x y 0x5) = .instr (.subReg x y) ∧
    decode (Word.ofXyn 0x8 x y 0x7) = .instr (.subn x y) ∧
    (∃ t, exec (.subReg x y) s = .next t ∧ t.pc = s.pc + 2 ∧
      (t.getV 0xF).toNat = (if (s.getV x).toNat ≥ (s.getV y).toNat then 1 else 0) ∧
      (x ≠ 0xF → ((t.getV x).toNat : Int) = ((s.getV x).toNat - (s.getV y).toNat : Int) % 256) ∧
      SameRegsExcept [x, 0xF] s t ∧ SameExcept [.pc, .V] s t) ∧
    (∃ t, exec (.subn x y) s = .next t ∧ t.pc = s.pc + 2 ∧
      (t.getV 0xF).toNat = (if (s.getV y).toNat ≥ (s.getV x).toNat then 1 else 0) ∧
      (x ≠ 0xF → ((t.getV x).toNat : Int) = ((s.getV y).toNat - (s.getV x).toNat : Int) % 256) ∧
      SameRegsExcept [x, 0xF] s t ∧ SameExcept [.pc, .V] s t)

/-- 8xy6 and 8xyE (42_alu.md R169, R171): VF is the bit shifted out of V[x], for x = 0xF too; V[x] is the
shifted value when x is not 0xF; V[y] is not read (the result is said without it); nothing else
changes. -/
def Obligations.ShiftsMoveABitIntoTheFlag : Prop :=
  ∀ (s : State) (x y : Digit),
    decode (Word.ofXyn 0x8 x y 0x6) = .instr (.shr x y) ∧
    decode (Word.ofXyn 0x8 x y 0xE) = .instr (.shl x y) ∧
    (∃ t, exec (.shr x y) s = .next t ∧ t.pc = s.pc + 2 ∧
      (t.getV 0xF).toNat = (s.getV x).toNat % 2 ∧
      (x ≠ 0xF → (t.getV x).toNat = (s.getV x).toNat / 2) ∧
      SameRegsExcept [x, 0xF] s t ∧ SameExcept [.pc, .V] s t) ∧
    (∃ t, exec (.shl x y) s = .next t ∧ t.pc = s.pc + 2 ∧
      (t.getV 0xF).toNat = (s.getV x).toNat / 128 ∧
      (x ≠ 0xF → (t.getV x).toNat = (s.getV x).toNat * 2 % 256) ∧
      SameRegsExcept [x, 0xF] s t ∧ SameExcept [.pc, .V] s t)

/-- Cxnn: V[x] is nn AND a fresh draw, so it is 0 wherever nn is 0; nothing else changes
(42_alu.md R172, the spec's decision D15; the draw and its counter are the model's free value, log 3, and
the statement holds whatever byte it is). -/
def Obligations.RandomByteIsMasked : Prop :=
  ∀ (s : State) (x : Digit) (nn : Byte), ∃ (t : State) (r : Byte),
    exec (.rnd x nn) s = .next t ∧ r = Config.rand s.draws ∧ t.draws = s.draws + 1 ∧
    (∀ b < 8, (t.getV x).getLsbD b = (nn.getLsbD b && r.getLsbD b)) ∧ t.pc = s.pc + 2 ∧
    SameRegsExcept [x] s t ∧ SameExcept [.pc, .V, .draws] s t

/-- A register changes only where the instruction names it as its result, or where it is VF and the
instruction is one of the six that produce a flag (10_state.md R31, R32, R34). -/
def Obligations.RegistersChangeOnlyByName : Prop :=
  ∀ (i : Instr) (s t : State) (k : Digit), exec i s = .next t → t.getV k ≠ s.getV k →
    namesResult k i = true ∨ (k = 0xF ∧ producesFlag i = true)

/-! ### The index register and memory instructions -/

/-- Annn (43_index_memory.md R201): I is nnn; nothing else changes. -/
def Obligations.LoadIndexSetsI : Prop :=
  ∀ (s : State) (nnn : Addr12), decode (Word.ofNnn 0xA nnn) = .instr (.ldI nnn) ∧
    ∃ t, exec (.ldI nnn) s = .next t ∧ t.I.toNat = nnn.toNat ∧ t.pc = s.pc + 2 ∧
      SameExcept [.pc, .I] s t

/-- Fx1E: I is the sum modulo `FX1E_WRAP`, and no flag is written (43_index_memory.md R202, the spec's
decision D6). -/
def Obligations.AddToIndexWrapsAsConfigured : Prop :=
  ∀ (s : State) (x : Digit), ∃ t, exec (.addI x) s = .next t ∧
    t.I.toNat = (s.I.toNat + (s.getV x).toNat) %
      (match s.cfg.fx1eWrap with | .mod65536 => 65536 | .mod4096 => 4096) ∧
    t.pc = s.pc + 2 ∧ SameExcept [.pc, .I] s t

/-- Fx29 (43_index_memory.md R203): I is the address of the glyph of V[x]'s low nibble; nothing else
changes. -/
def Obligations.FontAddressOfTheLowNibble : Prop :=
  ∀ (s : State) (x : Digit), decode (Word.ofXnn 0xF x 0x29) = .instr (.ldF x) ∧
    ∃ t, exec (.ldF x) s = .next t ∧ t.I.toNat = 0x050 + 5 * ((s.getV x).toNat % 16) ∧
      t.pc = s.pc + 2 ∧ SameExcept [.pc, .I] s t

/-- Fx33 in range: the three decimal digits stand at I, I + 1 and I + 2, every other byte and all else is
unchanged (43_index_memory.md R204). -/
def Obligations.BcdStoresTheDigits : Prop :=
  ∀ (s : State) (x : Digit), Memory.wf s.mem → s.I.toNat + 2 ≤ 0xFFF →
    ∃ t, exec (.ldB x) s = .next t ∧
      (t.readByte s.I.toNat).toNat = (s.getV x).toNat / 100 ∧
      (t.readByte (s.I.toNat + 1)).toNat = (s.getV x).toNat / 10 % 10 ∧
      (t.readByte (s.I.toNat + 2)).toNat = (s.getV x).toNat % 10 ∧
      SameBytesOutside s.I.toNat 3 s t ∧ t.pc = s.pc + 2 ∧ SameExcept [.pc, .mem] s t

/-- Fx55 in range: V[0] to V[x] stand at I to I + x, every other byte is unchanged, and I is unchanged,
or I + x + 1 modulo 65536 under `LOADSTORE_INCREMENTS_I` (43_index_memory.md R205, the spec's decision
D12). -/
def Obligations.StoreRegistersWritesThem : Prop :=
  ∀ (s : State) (x : Digit), Memory.wf s.mem → s.I.toNat + x.toNat ≤ 0xFFF →
    ∃ t, exec (.stRegs x) s = .next t ∧
      (∀ k : Digit, k.toNat ≤ x.toNat → t.readByte (s.I.toNat + k.toNat) = s.getV k) ∧
      SameBytesOutside s.I.toNat (x.toNat + 1) s t ∧
      (s.cfg.loadStoreIncrementsI = false → t.I = s.I) ∧
      (s.cfg.loadStoreIncrementsI = true → t.I.toNat = (s.I.toNat + x.toNat + 1) % 65536) ∧
      t.pc = s.pc + 2 ∧ SameExcept [.pc, .mem, .I] s t

/-- Fx65 in range: V[0] to V[x] take the bytes at I to I + x, every other register is unchanged, and I is
unchanged, or I + x + 1 modulo 65536 under `LOADSTORE_INCREMENTS_I` (43_index_memory.md R206, the spec's
decision D12). -/
def Obligations.LoadRegistersReadsThem : Prop :=
  ∀ (s : State) (x : Digit), s.I.toNat + x.toNat ≤ 0xFFF →
    ∃ t, exec (.ldRegs x) s = .next t ∧
      (∀ k : Digit, k.toNat ≤ x.toNat → t.getV k = s.readByte (s.I.toNat + k.toNat)) ∧
      (∀ k : Digit, x.toNat < k.toNat → t.getV k = s.getV k) ∧
      (s.cfg.loadStoreIncrementsI = false → t.I = s.I) ∧
      (s.cfg.loadStoreIncrementsI = true → t.I.toNat = (s.I.toNat + x.toNat + 1) % 65536) ∧
      t.pc = s.pc + 2 ∧ SameExcept [.pc, .V, .I] s t

/-- What Fx55 stores, Fx65 loads back, whatever the registers hold in between
(43_index_memory.md R205, R206). -/
def Obligations.LoadRestoresWhatStoreSaved : Prop :=
  ∀ (s t u v : State) (x : Digit), Memory.wf s.mem → s.I.toNat + x.toNat ≤ 0xFFF →
    exec (.stRegs x) s = .next t → u.mem = t.mem → u.I = s.I → exec (.ldRegs x) u = .next v →
    ∀ k : Digit, k.toNat ≤ x.toNat → v.getV k = s.getV k

/-! ### The display -/

/-- 00E0 (44_display.md R231): every pixel is off; nothing else but the pc changes. -/
def Obligations.ClearTurnsEveryPixelOff : Prop :=
  ∀ s : State, decode 0x00E0 = .instr .cls ∧
    ∃ t, exec .cls s = .next t ∧ (∀ r c, Display.get t.disp r c = false) ∧ t.pc = s.pc + 2 ∧
      SameExcept [.pc, .disp] s t

/-- Dxyn in range: a pixel a set sprite bit falls on is inverted and every other pixel is unchanged; of
the registers only VF is written (44_display.md R232, R234; the place of a bit rests on the spec's
decisions D7 and D8, the wrapped edge on D9). -/
def Obligations.DrawInvertsTheCoveredPixels : Prop :=
  ∀ (s : State) (x y n : Digit), (n = 0 ∨ s.I.toNat + n.toNat - 1 ≤ 0xFFF) →
    ∃ t, exec (.drw x y n) s = .next t ∧
      (∀ r c, (spriteCovers s x y n r c → Display.get t.disp r c = !Display.get s.disp r c) ∧
        (¬ spriteCovers s x y n r c → Display.get t.disp r c = Display.get s.disp r c)) ∧
      t.pc = s.pc + 2 ∧ SameRegsExcept [0xF] s t ∧ SameExcept [.pc, .V, .disp] s t

/-- 44_display.md R233: after a draw VF is 1 exactly when some pixel the draw inverts was on before it,
and else 0. -/
def Obligations.CollisionFlagIsExact : Prop :=
  ∀ (s : State) (x y n : Digit), (n = 0 ∨ s.I.toNat + n.toNat - 1 ≤ 0xFFF) →
    ∃ t, exec (.drw x y n) s = .next t ∧
      ((∃ r c, spriteCovers s x y n r c ∧ Display.get s.disp r c = true) → t.getV 0xF = 1) ∧
      ((¬ ∃ r c, spriteCovers s x y n r c ∧ Display.get s.disp r c = true) → t.getV 0xF = 0)

/-- The same draw twice in a row at the same place restores the display, and the second reports a collision
exactly when some covered pixel was lit by the first, which is when some covered pixel was off before it
(44_display.md R232, R233; 95_test_vectors.md S4; the place of a bit rests on the spec's decisions D7 and D8,
log 11, the wrapped edge on D9). Where a coordinate is VF, which the first draw writes, the place is the same
when the new VF starts where the old one did; any other coordinate is kept. -/
def Obligations.DrawingTwiceRestoresTheDisplay : Prop :=
  ∀ (s t u : State) (x y n : Digit), faultOf (.drw x y n) s = none →
    exec (.drw x y n) s = .next t → exec (.drw x y n) t = .next u →
    (x = 0xF → (t.getV 0xF).toNat % 64 = (s.getV 0xF).toNat % 64) →
    (y = 0xF → (t.getV 0xF).toNat % 32 = (s.getV 0xF).toNat % 32) →
    u.disp = s.disp ∧
    (u.getV 0xF = 1 ↔ ∃ r c, spriteCovers s x y n r c ∧ Display.get s.disp r c = false)

/-! ### The keypad and the timers -/

/-- Ex9E and ExA1 with a key number in V[x]: pc passes the next word exactly when that key is pressed, or
exactly when it is not; nothing else changes (45_keypad_timer_ops.md R261, R262). -/
def Obligations.SkipsOnAKey : Prop :=
  ∀ (s : State) (x k : Digit), (s.getV x).toNat = k.toNat →
    (∃ t, exec (.skp x) s = .next t ∧ SameExcept [.pc] s t ∧
      (s.keyDown k = true → t.pc = s.pc + 4) ∧ (s.keyDown k = false → t.pc = s.pc + 2)) ∧
    (∃ t, exec (.sknp x) s = .next t ∧ SameExcept [.pc] s t ∧
      (s.keyDown k = false → t.pc = s.pc + 4) ∧ (s.keyDown k = true → t.pc = s.pc + 2))

/-- Ex9E and ExA1 with V[x] above 0xF: under `fault` the run halts with KEY_INDEX_OUT_OF_RANGE and nothing
else changes; under `low_nibble` the key is V[x] AND 0xF (45_keypad_timer_ops.md R260, the spec's
decision D10). -/
def Obligations.KeyIndexFollowsThePolicy : Prop :=
  ∀ (s : State) (x k : Digit), (s.getV x).toNat > 0xF → (s.getV x).toNat % 16 = k.toNat →
    (s.cfg.keyIndexPolicy = .fault →
      exec (.skp x) s = .next { s with run := .halted (.fault
        ⟨.keyIndexOutOfRange (s.getV x), s.pc, some (Word.ofXnn 0xE x 0x9E)⟩) } ∧
      exec (.sknp x) s = .next { s with run := .halted (.fault
        ⟨.keyIndexOutOfRange (s.getV x), s.pc, some (Word.ofXnn 0xE x 0xA1)⟩) }) ∧
    (s.cfg.keyIndexPolicy = .lowNibble →
      (∃ t, exec (.skp x) s = .next t ∧ SameExcept [.pc] s t ∧
        t.pc = s.pc + (if s.keyDown k then 4 else 2)) ∧
      (∃ t, exec (.sknp x) s = .next t ∧ SameExcept [.pc] s t ∧
        t.pc = s.pc + (if s.keyDown k then 2 else 4)))

/-- Fx07 (45_keypad_timer_ops.md R266): V[x] is DT; nothing else changes. -/
def Obligations.ReadTimerGivesDT : Prop :=
  ∀ (s : State) (x : Digit), decode (Word.ofXnn 0xF x 0x07) = .instr (.ldVxDT x) ∧
    ∃ t, exec (.ldVxDT x) s = .next t ∧ t.getV x = s.DT ∧ t.pc = s.pc + 2 ∧
      SameRegsExcept [x] s t ∧ SameExcept [.pc, .V] s t

/-- Fx15 and Fx18 (45_keypad_timer_ops.md R267, R268): DT, or ST, is V[x]; nothing else changes. The first
decrement of DT comes at the next tick, and the tone is on exactly when V[x] is not 0. -/
def Obligations.SetTimersFromTheRegister : Prop :=
  ∀ (s : State) (x : Digit),
    decode (Word.ofXnn 0xF x 0x15) = .instr (.ldDTVx x) ∧
    decode (Word.ofXnn 0xF x 0x18) = .instr (.ldSTVx x) ∧
    (∃ t, exec (.ldDTVx x) s = .next t ∧ t.DT = s.getV x ∧ t.pc = s.pc + 2 ∧
      (s.run = .running → t.tick.DT.toNat = (s.getV x).toNat - 1) ∧ SameExcept [.pc, .DT] s t) ∧
    (∃ t, exec (.ldSTVx x) s = .next t ∧ t.ST = s.getV x ∧ t.pc = s.pc + 2 ∧
      (t.soundActive = true ↔ s.getV x ≠ 0) ∧ SameExcept [.pc, .ST] s t)

/-- Fx0A: the wait begins with no edge latched and pc at the next instruction; no register and nothing
else changes (45_keypad_timer_ops.md R263, the spec's decision D11). -/
def Obligations.KeyWaitBegins : Prop :=
  ∀ (s : State) (x : Digit), ∃ t, exec (.ldVxK x) s = .next t ∧ t.run = .awaitingKey x ∧
    (∀ k : Fin 16, t.keyEdge[k] = false) ∧ t.pc = s.pc + 2 ∧ SameExcept [.pc, .run, .keyEdge] s t

/-- The await-completion step: with an edge latched the engine's turn puts the number of a key whose edge
is latched into V[x], clears every edge and runs on; no other register, no pc and nothing else changes
(45_keypad_timer_ops.md R264, the spec's decision D11; which key is the free value of log 4, and the
counter of draws is the model's own). -/
def Obligations.KeyWaitCompletesWithALatchedKey : Prop :=
  ∀ (s s' : State) (x : Digit), s.engineTurn s' → s.run = .awaitingKey x →
    (∃ k : Fin 16, s.keyEdge[k] = true) →
    ∃ (t : State) (k : Fin 16), step s = .next t ∧ s.keyEdge[k] = true ∧ (t.getV x).toNat = k.val ∧
      t.run = .running ∧ (∀ j : Fin 16, t.keyEdge[j] = false) ∧
      SameRegsExcept [x] s' t ∧ SameExcept [.V, .run, .keyEdge, .draws] s' t

/-- A key write sets the masked keys and no other, in every run state; during a wait it latches the edge
of each key it changes from not pressed to pressed and clears none, and in any other run state it
latches nothing (60_exceptions.md R333, 45_keypad_timer_ops.md R265, the spec's decisions D11, D22). -/
def Obligations.KeyWriteSetsKeysAndEdges : Prop :=
  ∀ (s s' : State) (mask values : BitVec 16), s.eventTurn (.keyWrite mask values) s' →
    ∃ t, step s = .next t ∧
      (∀ k : Fin 16, t.keys[k] = if mask.getLsbD k.val then values.getLsbD k.val else s.keys[k]) ∧
      ((∃ x, s.run = .awaitingKey x) → ∀ k : Fin 16,
        t.keyEdge[k] = (s.keyEdge[k] || (!s.keys[k] && t.keys[k]))) ∧
      ((¬ ∃ x, s.run = .awaitingKey x) → t.keyEdge = s.keyEdge) ∧
      SameExcept [.keys, .keyEdge] s' t

/-- A tick in `Running` or in a wait decrements each nonzero timer by one and leaves a zero one at zero, each
for itself, and writes nothing else (60_exceptions.md R321); in `Ready` and in `Halted` it is not applied and
changes nothing (R322, the spec's decision D16; that the event passes is the model's, log 7). -/
def Obligations.TickCountsDownClamped : Prop :=
  ∀ s s' : State, s.eventTurn .tick s' →
    ((s.run = .running ∨ ∃ x, s.run = .awaitingKey x) →
      ∃ t, step s = .next t ∧ t.DT.toNat = s.DT.toNat - 1 ∧ t.ST.toNat = s.ST.toNat - 1 ∧
        SameExcept [.DT, .ST] s' t) ∧
    ((s.run = .ready ∨ s.ended) → step s = .next s')

/-- n ticks in a row take n from each timer, and no further than 0: after DT of them it reads 0
(60_exceptions.md R321, R323; 95_test_vectors.md S8). -/
def Obligations.TicksRunTheTimersDown : Prop :=
  ∀ (n : Nat) (s : State) (rest : List Event), (s.run = .running ∨ ∃ x, s.run = .awaitingKey x) →
    s.sched = List.replicate n .tick ++ rest →
    ∃ t, Host.Core.run core n s = .next t ∧ t.DT.toNat = s.DT.toNat - n ∧
      t.ST.toNat = s.ST.toNat - n ∧ t.sched = rest ∧ SameExcept [.DT, .ST, .sched] s t

/-- DT changes only by a tick, or by the engine's turn in `Running` on an Fx15, which sets it to V[x]; ST only
by a tick, or by the engine's turn in `Running` on an Fx18, which sets it to V[x] (10_state.md R38, R39). -/
def Obligations.TimersChangeOnlyByTickOrWrite : Prop :=
  ∀ s t : State, step s = .next t → s.nextEvent.1 ≠ .tick →
    (t.DT ≠ s.DT → s.nextEvent.1 = .engine ∧ s.run = .running ∧
      ∃ w x, s.fetch = some w ∧ decode w = .instr (.ldDTVx x) ∧ t.DT = s.getV x) ∧
    (t.ST ≠ s.ST → s.nextEvent.1 = .engine ∧ s.run = .running ∧
      ∃ w x, s.fetch = some w ∧ decode w = .instr (.ldSTVx x) ∧ t.ST = s.getV x)

/-! ### The host and the run -/

/-- A load in `Ready` of at most 3584 bytes: 0x200 on holds the image and then zeros to 0xFFF, every other
byte is unchanged, and the answer is ok (60_exceptions.md R331, the spec's decision D24; the list of
answers is the model's own, log 8). -/
def Obligations.LoadCopiesTheImage : Prop :=
  ∀ (s s' : State) (rom : List Byte), s.eventTurn (.load rom) s' → s.run = .ready →
    Memory.wf s.mem → rom.length ≤ 3584 →
    ∃ t, step s = .next t ∧
      (∀ i (h : i < rom.length), t.readByte (0x200 + i) = rom[i]) ∧
      (∀ i, rom.length ≤ i → i < 3584 → t.readByte (0x200 + i) = 0) ∧
      SameBytesOutside 0x200 3584 s t ∧
      t.outputs = .loadResult .ok :: s.outputs ∧ SameExcept [.mem, .outputs] s' t

/-- A load that is refused changes nothing but the answers: ROM_TOO_LARGE in `Ready` past 3584 bytes,
NOT_READY in any other run state (60_exceptions.md R331, the spec's decision D24; log 8). -/
def Obligations.RefusedLoadChangesNothing : Prop :=
  ∀ (s s' : State) (rom : List Byte), s.eventTurn (.load rom) s' →
    (s.run = .ready → rom.length > 3584 →
      step s = .next { s' with outputs := .loadResult .romTooLarge :: s.outputs }) ∧
    (s.run ≠ .ready → step s = .next { s' with outputs := .loadResult .notReady :: s.outputs })

/-- Start is accepted only in `Ready` and stop in every run state but `Halted`; each changes the run state
alone (60_exceptions.md R335, R308, the spec's decisions D24, D17). A second stop changes nothing (R304, the
spec's decision D5); that a start outside `Ready` passes without effect is the model's, log 7. -/
def Obligations.StartAndStopSetTheRunState : Prop :=
  ∀ s s' : State,
    (s.eventTurn .start s' → s.run = .ready → step s = .next { s' with run := .running }) ∧
    (s.eventTurn .start s' → s.run ≠ .ready → step s = .next s') ∧
    (s.eventTurn .stop s' → ¬ s.ended → step s = .next { s' with run := .halted .stopped }) ∧
    (s.eventTurn .stop s' → s.ended → step s = .next s')

/-- `Halted` is terminal: the engine's turn ends the run, and no other event changes anything but the keys,
which change only on a key write, and the answers, which change only on a load (60_exceptions.md R304, R331,
R333, the spec's decisions D5, D22, D24; that the end is a stop of the model is log 6, that a tick, a start or a stop
passes log 7, the list of answers log 8). -/
def Obligations.HaltedIsTerminal : Prop :=
  ∀ (s : State) (why : HaltReason), s.run = .halted why →
    (∀ s', s.engineTurn s' → step s = .fault (.runEnded why)) ∧
    (∀ t, step s = .next t → t.run = .halted why ∧ SameExcept [.keys, .sched, .outputs] s t ∧
      ((∀ mask values, s.nextEvent.1 ≠ .keyWrite mask values) → t.keys = s.keys) ∧
      ((∀ rom, s.nextEvent.1 ≠ .load rom) → t.outputs = s.outputs))

/-- The run state changes only as 40_engine.md R109 lists (the spec's decision D5), whatever the state: by
start, by stop, into a wait by Fx0A for its own x, out of it with an edge latched, and into a fault that
records the pc and the word fetched there. -/
def Obligations.RunStateMovesOnlyAsListed : Prop :=
  ∀ s t : State, step s = .next t → runTransition s s.nextEvent.1 t.run

/-- A step answers a next state, but for the engine's turn in `Halted`: no instruction is refused and no
event stops the machine (40_engine.md R110: a run ends when, and only when, it is halted; log 6). -/
def Obligations.OnlyAHaltedRunEnds : Prop :=
  ∀ s : State, (∃ t, step s = .next t) ∨
    ∃ why s', s.run = .halted why ∧ s.engineTurn s' ∧ step s = .fault (.runEnded why)

/-! ### Faults -/

/-- The faults of 60_exceptions.md R300: where the table lists a cause for an instruction, its step halts
with that cause, its own address and its own word, and changes nothing else (R303, the spec's
decisions D3, D4). -/
def Obligations.ListedFaultsHaltPrecisely : Prop :=
  ∀ (i : Instr) (s : State) (c : FaultCause), faultOf i s = some c →
    exec i s = .next { s with run := .halted (.fault ⟨c, s.pc, some i.encode⟩) }

/-- Where the table of 60_exceptions.md R300 lists no cause, the instruction has its effect: it writes only
the pieces of state that 10_state.md R48 lists for it, and of the run state only Fx0A writes any. -/
def Obligations.WithoutAFaultOnlyTheListedPiecesChange : Prop :=
  ∀ (i : Instr) (s : State), faultOf i s = none →
    ∃ t, exec i s = .next t ∧ SameExcept (mayWrite i) s t

/-! ### Invariants -/

/-- Every step keeps the memory's canonical form (20_memory.md R60, R63: every access is checked before it
is made). -/
def Obligations.StepKeepsTheMemoryForm : Prop :=
  ∀ s t : State, Memory.wf s.mem → step s = .next t → Memory.wf t.mem

/-- Every step keeps the control invariant: pc at most 0x10FE, return addresses at most 0x1000, no edge
latched outside a wait, the entry point before start, and a recorded fault that names the very
instruction the machine stands at (40_engine.md R102; 41_control_flow.md R130, R139; 10_state.md R44;
60_exceptions.md R301, R302, R335). -/
def Obligations.StepKeepsTheControlInvariant : Prop :=
  ∀ s t : State, s.controlInv → step s = .next t → t.controlInv

/-- Construction, with any parameters, meets both invariants, and reset is the construction with the
defaults (70_reset_and_hazards.md R350; the schedule, counter and outputs of reset are the model's own, log 1, 3, 8,
and nothing here rests on them). -/
def Obligations.ConstructionMeetsTheInvariants : Prop :=
  (∀ c : Config, Memory.wf (State.construct c).mem ∧ (State.construct c).controlInv) ∧
  State.construct Config.default = State.reset

/-- What construction leaves: the font in 0x050..0x09F, every other byte 0, pc 0x200, all else zero, false
or empty, and the run state `Ready` (10_state.md R47; the run state, the edges and the record are the
spec's decisions D24, D11, D3). -/
def Obligations.ConstructionLeavesTheResetValues : Prop :=
  ∀ c : Config, let s := State.construct c
    (∀ i (h : i < 80), s.readByte (0x050 + i) = c.font[i]) ∧
    (∀ a, (a < 0x050 ∨ 0x0A0 ≤ a) → s.readByte a = 0) ∧
    (∀ k, s.getV k = 0) ∧ s.I = 0 ∧ s.pc = 0x200 ∧ s.sp = 0 ∧
    (∀ j : Fin 16, s.stack[j] = 0) ∧ s.DT = 0 ∧ s.ST = 0 ∧
    (∀ r p, Display.get s.disp r p = false) ∧ (∀ k : Fin 16, s.keys[k] = false) ∧
    (∀ k : Fin 16, s.keyEdge[k] = false) ∧ s.run = .ready ∧ s.faultRecord = none ∧ s.cfg = c

/-- The parameters are fixed for the session, and the keys change only by a key write
(00_scope.md R7, 10_state.md R41). -/
def Obligations.ParametersAreFixedAndKeysAreTheHosts : Prop :=
  ∀ s t : State, step s = .next t → t.cfg = s.cfg ∧
    ((∀ mask values, s.nextEvent.1 ≠ .keyWrite mask values) → t.keys = s.keys)
end

