-- ==== Sys2Proof/Laws/Memory.lean ====
section
/-! SUPPORT. Every memory operation keeps the canonical form `Memory.wf`, and what reset's and a construction's
memory hold. -/

namespace Sys2Proof.Machine

theorem inRange_iff (a : Nat) : inRange a = true ↔ a ≤ 0xFFF :=
  decide_eq_true_iff

/-- Above the font an unlisted address reads 0, so that a load's zeros need no cell. -/
theorem Memory.unlisted_above_font (a : Nat) (h : 0x0A0 ≤ a) : Memory.unlisted a = 0 := by
  unfold Memory.unlisted fontBase
  rw [dif_neg (by omega)]

theorem Memory.mem_cons (a : Nat) (v : Byte) (m : Memory) (c : Host.Cell)
    (h : c ∈ Memory.cons a v m) : c.1 = a ∨ c ∈ m := by
  unfold Memory.cons at h
  split at h
  · exact .inr h
  · rcases List.mem_cons.1 h with rfl | h
    · exact .inl rfl
    · exact .inr h

theorem Memory.cons_wf (a : Nat) (v : Byte) (m : Memory) (ha : a ≤ addrMax)
    (hlt : ∀ c ∈ m, a < c.1) (hm : Memory.wf m) : Memory.wf (Memory.cons a v m) := by
  unfold Memory.cons
  split
  · exact hm
  · next hv =>
    refine ⟨List.pairwise_cons.2 ⟨hlt, hm.1⟩, fun c hc => ?_⟩
    rcases List.mem_cons.1 hc with rfl | hc
    · exact ⟨ha, hv⟩
    · exact hm.2 c hc

theorem Memory.mem_write (m : Memory) (a : Nat) (v : Byte) (c : Host.Cell)
    (h : c ∈ Memory.write m a v) : c.1 = a ∨ c ∈ m := by
  induction m with
  | nil => exact Memory.mem_cons _ _ _ _ h
  | cons d m ih =>
    obtain ⟨k, b⟩ := d
    unfold Memory.write at h
    split at h
    · exact Memory.mem_cons _ _ _ _ h
    · split at h
      · exact (Memory.mem_cons _ _ _ _ h).imp_right (List.mem_cons_of_mem _)
      · rcases List.mem_cons.1 h with rfl | h
        · exact .inr List.mem_cons_self
        · exact (ih h).imp_right (List.mem_cons_of_mem _)

/-- `MemWrite` at an address in range keeps the canonical form. -/
theorem Memory.write_wf (m : Memory) (a : Nat) (v : Byte) (ha : a ≤ addrMax)
    (hm : Memory.wf m) : Memory.wf (Memory.write m a v) := by
  induction m with
  | nil => exact Memory.cons_wf a v [] ha (by simp) hm
  | cons d m ih =>
    obtain ⟨k, b⟩ := d
    have htail : Memory.wf m := ⟨(List.pairwise_cons.1 hm.1).2, fun c hc => hm.2 c (.tail _ hc)⟩
    have hk := (List.pairwise_cons.1 hm.1).1
    unfold Memory.write
    split
    · next hlt =>
      refine Memory.cons_wf a v _ ha (fun c hc => ?_) hm
      rcases List.mem_cons.1 hc with rfl | hc
      · exact hlt
      · exact Nat.lt_trans hlt (hk c hc)
    · next hnlt =>
      split
      · next heq => exact Memory.cons_wf a v m ha (fun c hc => by have := hk c hc; simp at this; omega) htail
      · next hne =>
        refine ⟨List.pairwise_cons.2 ⟨fun c hc => ?_, (ih htail).1⟩, fun c hc => ?_⟩
        · rcases Memory.mem_write _ _ _ _ hc with h | h
          · simp only [h]; omega
          · exact hk c h
        · rcases List.mem_cons.1 hc with rfl | hc
          · exact hm.2 _ List.mem_cons_self
          · exact (ih htail).2 c hc

/-- Bytes written at addresses in range keep the canonical form. -/
theorem Memory.writeBytes_wf (bs : List Byte) (m : Memory) (a : Nat)
    (ha : bs ≠ [] → a + bs.length ≤ addrMax + 1) (hm : Memory.wf m) :
    Memory.wf (Memory.writeBytes m a bs) := by
  induction bs generalizing m a with
  | nil => exact hm
  | cons b bs ih =>
    have h := ha (by simp)
    simp only [List.length_cons] at h
    exact ih _ _ (fun _ => by omega) (Memory.write_wf _ _ _ (by omega) hm)

theorem Memory.mem_ofBytes (bs : List Byte) (a : Nat) (c : Host.Cell)
    (h : c ∈ Memory.ofBytes a bs) : a ≤ c.1 ∧ c.1 < a + bs.length := by
  induction bs generalizing a with
  | nil => cases h
  | cons b bs ih =>
    rcases Memory.mem_cons _ _ _ _ h with h | h
    · simp only [List.length_cons]; omega
    · have := ih _ h
      simp only [List.length_cons]; omega

theorem Memory.ofBytes_wf (bs : List Byte) (a : Nat) (ha : a + bs.length ≤ addrMax + 1) :
    Memory.wf (Memory.ofBytes a bs) := by
  induction bs generalizing a with
  | nil => exact ⟨.nil, by simp [Memory.ofBytes]⟩
  | cons b bs ih =>
    simp only [List.length_cons] at ha
    exact Memory.cons_wf _ _ _ (by omega)
      (fun c hc => by have := Memory.mem_ofBytes _ _ _ hc; omega) (ih _ (by omega))

/-- An accepted load keeps the canonical form. -/
theorem Memory.load_wf (m : Memory) (rom : List Byte) (hr : rom.length ≤ romMax)
    (hm : Memory.wf m) : Memory.wf (Memory.load m rom) := by
  have hb : programBase + rom.length ≤ addrMax + 1 := by
    unfold programBase addrMax; unfold romMax at hr; omega
  have ho := Memory.ofBytes_wf rom programBase hb
  refine ⟨List.pairwise_append.2 ⟨hm.1.filter _, ho.1, fun c hc d hd => ?_⟩, fun c hc => ?_⟩
  · have h1 := (List.mem_filter.1 hc).2
    have h2 := (Memory.mem_ofBytes _ _ _ hd).1
    simp only [decide_eq_true_eq] at h1
    omega
  · rcases List.mem_append.1 hc with hc | hc
    · exact hm.2 c (List.mem_filter.1 hc).1
    · exact ho.2 c hc

/-- Reset's memory, which lists nothing, has the canonical form. -/
theorem State.reset_mem_wf : Memory.wf State.reset.mem := ⟨.nil, by simp [State.reset]⟩

/-- A construction's memory has the canonical form, whatever the font. -/
theorem State.construct_mem_wf (c : Config) : Memory.wf (State.construct c).mem :=
  Memory.ofBytes_wf _ _ (by simp [fontBase, addrMax])

/-! ### Reading -/

/-- An address below every cell reads as unlisted. -/
theorem Memory.read_below (m : Memory) (a : Nat) (h : ∀ c ∈ m, a < c.1) :
    Memory.read m a = Memory.unlisted a := by
  induction m with
  | nil => rfl
  | cons c m ih =>
    have := h c List.mem_cons_self
    rw [Memory.read, if_neg (by omega)]
    exact ih fun d hd => h d (.tail _ hd)

/-- The read of a cell put in front. -/
theorem Memory.read_cons (m : Memory) (a b : Nat) (v : Byte) (h : ∀ c ∈ m, a < c.1) :
    Memory.read (Memory.cons a v m) b = if a = b then v else Memory.read m b := by
  unfold Memory.cons
  split
  · next hv =>
    split
    · next hab => subst hab; rw [Memory.read_below m a h, hv]
    · rfl
  · rfl

/-- The read of bytes that stand from a. -/
theorem Memory.read_ofBytes (bs : List Byte) (a b : Nat) :
    Memory.read (Memory.ofBytes a bs) b =
      if h : a ≤ b ∧ b < a + bs.length then bs[b - a] else Memory.unlisted b := by
  induction bs generalizing a with
  | nil => rw [dif_neg (by simp)]; rfl
  | cons v bs ih =>
    rw [Memory.ofBytes, Memory.read_cons _ _ _ _
      (fun c hc => by have := Memory.mem_ofBytes _ _ _ hc; omega), ih]
    simp only [List.length_cons]
    by_cases h1 : a = b
    · subst h1; simp
    · rw [if_neg h1]
      by_cases h2 : a + 1 ≤ b ∧ b < a + 1 + bs.length
      · rw [dif_pos h2, dif_pos (by omega)]
        have : b - a = (b - (a + 1)) + 1 := by omega
        simp [this]
      · rw [dif_neg h2, dif_neg (by omega)]

end Sys2Proof.Machine
end

