-- ==== Sys2Proof/Laws/State.lean ====
section
/-! SUPPORT. What each update of the state leaves in each field, one lemma per field per update, so that no proof
unfolds a record update; and the reads of a register after a write. -/

namespace Sys2Proof.Machine

variable (s : State)

/-! ### State.setV -/

@[simp] theorem State.setV_mem (x : Digit) (b : Byte) : (s.setV x b).mem = s.mem := rfl
@[simp] theorem State.setV_V (x : Digit) (b : Byte) : (s.setV x b).V = s.V.set x.toNat b x.isLt := rfl
@[simp] theorem State.setV_I (x : Digit) (b : Byte) : (s.setV x b).I = s.I := rfl
@[simp] theorem State.setV_pc (x : Digit) (b : Byte) : (s.setV x b).pc = s.pc := rfl
@[simp] theorem State.setV_stack (x : Digit) (b : Byte) : (s.setV x b).stack = s.stack := rfl
@[simp] theorem State.setV_sp (x : Digit) (b : Byte) : (s.setV x b).sp = s.sp := rfl
@[simp] theorem State.setV_DT (x : Digit) (b : Byte) : (s.setV x b).DT = s.DT := rfl
@[simp] theorem State.setV_ST (x : Digit) (b : Byte) : (s.setV x b).ST = s.ST := rfl
@[simp] theorem State.setV_disp (x : Digit) (b : Byte) : (s.setV x b).disp = s.disp := rfl
@[simp] theorem State.setV_keys (x : Digit) (b : Byte) : (s.setV x b).keys = s.keys := rfl
@[simp] theorem State.setV_run (x : Digit) (b : Byte) : (s.setV x b).run = s.run := rfl
@[simp] theorem State.setV_keyEdge (x : Digit) (b : Byte) : (s.setV x b).keyEdge = s.keyEdge := rfl
@[simp] theorem State.setV_cfg (x : Digit) (b : Byte) : (s.setV x b).cfg = s.cfg := rfl
@[simp] theorem State.setV_sched (x : Digit) (b : Byte) : (s.setV x b).sched = s.sched := rfl
@[simp] theorem State.setV_draws (x : Digit) (b : Byte) : (s.setV x b).draws = s.draws := rfl
@[simp] theorem State.setV_outputs (x : Digit) (b : Byte) : (s.setV x b).outputs = s.outputs := rfl

/-! ### State.setRegs -/

@[simp] theorem State.setRegs_mem (v : Vector Byte 16) : (s.setRegs v).mem = s.mem := rfl
@[simp] theorem State.setRegs_V (v : Vector Byte 16) : (s.setRegs v).V = v := rfl
@[simp] theorem State.setRegs_I (v : Vector Byte 16) : (s.setRegs v).I = s.I := rfl
@[simp] theorem State.setRegs_pc (v : Vector Byte 16) : (s.setRegs v).pc = s.pc := rfl
@[simp] theorem State.setRegs_stack (v : Vector Byte 16) : (s.setRegs v).stack = s.stack := rfl
@[simp] theorem State.setRegs_sp (v : Vector Byte 16) : (s.setRegs v).sp = s.sp := rfl
@[simp] theorem State.setRegs_DT (v : Vector Byte 16) : (s.setRegs v).DT = s.DT := rfl
@[simp] theorem State.setRegs_ST (v : Vector Byte 16) : (s.setRegs v).ST = s.ST := rfl
@[simp] theorem State.setRegs_disp (v : Vector Byte 16) : (s.setRegs v).disp = s.disp := rfl
@[simp] theorem State.setRegs_keys (v : Vector Byte 16) : (s.setRegs v).keys = s.keys := rfl
@[simp] theorem State.setRegs_run (v : Vector Byte 16) : (s.setRegs v).run = s.run := rfl
@[simp] theorem State.setRegs_keyEdge (v : Vector Byte 16) : (s.setRegs v).keyEdge = s.keyEdge := rfl
@[simp] theorem State.setRegs_cfg (v : Vector Byte 16) : (s.setRegs v).cfg = s.cfg := rfl
@[simp] theorem State.setRegs_sched (v : Vector Byte 16) : (s.setRegs v).sched = s.sched := rfl
@[simp] theorem State.setRegs_draws (v : Vector Byte 16) : (s.setRegs v).draws = s.draws := rfl
@[simp] theorem State.setRegs_outputs (v : Vector Byte 16) : (s.setRegs v).outputs = s.outputs := rfl

/-! ### State.setI -/

@[simp] theorem State.setI_mem (w : Word) : (s.setI w).mem = s.mem := rfl
@[simp] theorem State.setI_V (w : Word) : (s.setI w).V = s.V := rfl
@[simp] theorem State.setI_I (w : Word) : (s.setI w).I = w := rfl
@[simp] theorem State.setI_pc (w : Word) : (s.setI w).pc = s.pc := rfl
@[simp] theorem State.setI_stack (w : Word) : (s.setI w).stack = s.stack := rfl
@[simp] theorem State.setI_sp (w : Word) : (s.setI w).sp = s.sp := rfl
@[simp] theorem State.setI_DT (w : Word) : (s.setI w).DT = s.DT := rfl
@[simp] theorem State.setI_ST (w : Word) : (s.setI w).ST = s.ST := rfl
@[simp] theorem State.setI_disp (w : Word) : (s.setI w).disp = s.disp := rfl
@[simp] theorem State.setI_keys (w : Word) : (s.setI w).keys = s.keys := rfl
@[simp] theorem State.setI_run (w : Word) : (s.setI w).run = s.run := rfl
@[simp] theorem State.setI_keyEdge (w : Word) : (s.setI w).keyEdge = s.keyEdge := rfl
@[simp] theorem State.setI_cfg (w : Word) : (s.setI w).cfg = s.cfg := rfl
@[simp] theorem State.setI_sched (w : Word) : (s.setI w).sched = s.sched := rfl
@[simp] theorem State.setI_draws (w : Word) : (s.setI w).draws = s.draws := rfl
@[simp] theorem State.setI_outputs (w : Word) : (s.setI w).outputs = s.outputs := rfl

/-! ### State.setDT -/

@[simp] theorem State.setDT_mem (b : Byte) : (s.setDT b).mem = s.mem := rfl
@[simp] theorem State.setDT_V (b : Byte) : (s.setDT b).V = s.V := rfl
@[simp] theorem State.setDT_I (b : Byte) : (s.setDT b).I = s.I := rfl
@[simp] theorem State.setDT_pc (b : Byte) : (s.setDT b).pc = s.pc := rfl
@[simp] theorem State.setDT_stack (b : Byte) : (s.setDT b).stack = s.stack := rfl
@[simp] theorem State.setDT_sp (b : Byte) : (s.setDT b).sp = s.sp := rfl
@[simp] theorem State.setDT_DT (b : Byte) : (s.setDT b).DT = b := rfl
@[simp] theorem State.setDT_ST (b : Byte) : (s.setDT b).ST = s.ST := rfl
@[simp] theorem State.setDT_disp (b : Byte) : (s.setDT b).disp = s.disp := rfl
@[simp] theorem State.setDT_keys (b : Byte) : (s.setDT b).keys = s.keys := rfl
@[simp] theorem State.setDT_run (b : Byte) : (s.setDT b).run = s.run := rfl
@[simp] theorem State.setDT_keyEdge (b : Byte) : (s.setDT b).keyEdge = s.keyEdge := rfl
@[simp] theorem State.setDT_cfg (b : Byte) : (s.setDT b).cfg = s.cfg := rfl
@[simp] theorem State.setDT_sched (b : Byte) : (s.setDT b).sched = s.sched := rfl
@[simp] theorem State.setDT_draws (b : Byte) : (s.setDT b).draws = s.draws := rfl
@[simp] theorem State.setDT_outputs (b : Byte) : (s.setDT b).outputs = s.outputs := rfl

/-! ### State.setST -/

@[simp] theorem State.setST_mem (b : Byte) : (s.setST b).mem = s.mem := rfl
@[simp] theorem State.setST_V (b : Byte) : (s.setST b).V = s.V := rfl
@[simp] theorem State.setST_I (b : Byte) : (s.setST b).I = s.I := rfl
@[simp] theorem State.setST_pc (b : Byte) : (s.setST b).pc = s.pc := rfl
@[simp] theorem State.setST_stack (b : Byte) : (s.setST b).stack = s.stack := rfl
@[simp] theorem State.setST_sp (b : Byte) : (s.setST b).sp = s.sp := rfl
@[simp] theorem State.setST_DT (b : Byte) : (s.setST b).DT = s.DT := rfl
@[simp] theorem State.setST_ST (b : Byte) : (s.setST b).ST = b := rfl
@[simp] theorem State.setST_disp (b : Byte) : (s.setST b).disp = s.disp := rfl
@[simp] theorem State.setST_keys (b : Byte) : (s.setST b).keys = s.keys := rfl
@[simp] theorem State.setST_run (b : Byte) : (s.setST b).run = s.run := rfl
@[simp] theorem State.setST_keyEdge (b : Byte) : (s.setST b).keyEdge = s.keyEdge := rfl
@[simp] theorem State.setST_cfg (b : Byte) : (s.setST b).cfg = s.cfg := rfl
@[simp] theorem State.setST_sched (b : Byte) : (s.setST b).sched = s.sched := rfl
@[simp] theorem State.setST_draws (b : Byte) : (s.setST b).draws = s.draws := rfl
@[simp] theorem State.setST_outputs (b : Byte) : (s.setST b).outputs = s.outputs := rfl

/-! ### State.setDisp -/

@[simp] theorem State.setDisp_mem (d : Display) : (s.setDisp d).mem = s.mem := rfl
@[simp] theorem State.setDisp_V (d : Display) : (s.setDisp d).V = s.V := rfl
@[simp] theorem State.setDisp_I (d : Display) : (s.setDisp d).I = s.I := rfl
@[simp] theorem State.setDisp_pc (d : Display) : (s.setDisp d).pc = s.pc := rfl
@[simp] theorem State.setDisp_stack (d : Display) : (s.setDisp d).stack = s.stack := rfl
@[simp] theorem State.setDisp_sp (d : Display) : (s.setDisp d).sp = s.sp := rfl
@[simp] theorem State.setDisp_DT (d : Display) : (s.setDisp d).DT = s.DT := rfl
@[simp] theorem State.setDisp_ST (d : Display) : (s.setDisp d).ST = s.ST := rfl
@[simp] theorem State.setDisp_disp (d : Display) : (s.setDisp d).disp = d := rfl
@[simp] theorem State.setDisp_keys (d : Display) : (s.setDisp d).keys = s.keys := rfl
@[simp] theorem State.setDisp_run (d : Display) : (s.setDisp d).run = s.run := rfl
@[simp] theorem State.setDisp_keyEdge (d : Display) : (s.setDisp d).keyEdge = s.keyEdge := rfl
@[simp] theorem State.setDisp_cfg (d : Display) : (s.setDisp d).cfg = s.cfg := rfl
@[simp] theorem State.setDisp_sched (d : Display) : (s.setDisp d).sched = s.sched := rfl
@[simp] theorem State.setDisp_draws (d : Display) : (s.setDisp d).draws = s.draws := rfl
@[simp] theorem State.setDisp_outputs (d : Display) : (s.setDisp d).outputs = s.outputs := rfl

/-! ### State.countDraw -/

@[simp] theorem State.countDraw_mem : s.countDraw.mem = s.mem := rfl
@[simp] theorem State.countDraw_V : s.countDraw.V = s.V := rfl
@[simp] theorem State.countDraw_I : s.countDraw.I = s.I := rfl
@[simp] theorem State.countDraw_pc : s.countDraw.pc = s.pc := rfl
@[simp] theorem State.countDraw_stack : s.countDraw.stack = s.stack := rfl
@[simp] theorem State.countDraw_sp : s.countDraw.sp = s.sp := rfl
@[simp] theorem State.countDraw_DT : s.countDraw.DT = s.DT := rfl
@[simp] theorem State.countDraw_ST : s.countDraw.ST = s.ST := rfl
@[simp] theorem State.countDraw_disp : s.countDraw.disp = s.disp := rfl
@[simp] theorem State.countDraw_keys : s.countDraw.keys = s.keys := rfl
@[simp] theorem State.countDraw_run : s.countDraw.run = s.run := rfl
@[simp] theorem State.countDraw_keyEdge : s.countDraw.keyEdge = s.keyEdge := rfl
@[simp] theorem State.countDraw_cfg : s.countDraw.cfg = s.cfg := rfl
@[simp] theorem State.countDraw_sched : s.countDraw.sched = s.sched := rfl
@[simp] theorem State.countDraw_draws : s.countDraw.draws = s.draws + 1 := rfl
@[simp] theorem State.countDraw_outputs : s.countDraw.outputs = s.outputs := rfl

/-! ### State.setPc -/

@[simp] theorem State.setPc_mem (w : Word) : (s.setPc w).mem = s.mem := rfl
@[simp] theorem State.setPc_V (w : Word) : (s.setPc w).V = s.V := rfl
@[simp] theorem State.setPc_I (w : Word) : (s.setPc w).I = s.I := rfl
@[simp] theorem State.setPc_pc (w : Word) : (s.setPc w).pc = w := rfl
@[simp] theorem State.setPc_stack (w : Word) : (s.setPc w).stack = s.stack := rfl
@[simp] theorem State.setPc_sp (w : Word) : (s.setPc w).sp = s.sp := rfl
@[simp] theorem State.setPc_DT (w : Word) : (s.setPc w).DT = s.DT := rfl
@[simp] theorem State.setPc_ST (w : Word) : (s.setPc w).ST = s.ST := rfl
@[simp] theorem State.setPc_disp (w : Word) : (s.setPc w).disp = s.disp := rfl
@[simp] theorem State.setPc_keys (w : Word) : (s.setPc w).keys = s.keys := rfl
@[simp] theorem State.setPc_run (w : Word) : (s.setPc w).run = s.run := rfl
@[simp] theorem State.setPc_keyEdge (w : Word) : (s.setPc w).keyEdge = s.keyEdge := rfl
@[simp] theorem State.setPc_cfg (w : Word) : (s.setPc w).cfg = s.cfg := rfl
@[simp] theorem State.setPc_sched (w : Word) : (s.setPc w).sched = s.sched := rfl
@[simp] theorem State.setPc_draws (w : Word) : (s.setPc w).draws = s.draws := rfl
@[simp] theorem State.setPc_outputs (w : Word) : (s.setPc w).outputs = s.outputs := rfl

/-! ### State.advance -/

@[simp] theorem State.advance_mem : s.advance.mem = s.mem := rfl
@[simp] theorem State.advance_V : s.advance.V = s.V := rfl
@[simp] theorem State.advance_I : s.advance.I = s.I := rfl
@[simp] theorem State.advance_pc : s.advance.pc = s.pc + 2 := rfl
@[simp] theorem State.advance_stack : s.advance.stack = s.stack := rfl
@[simp] theorem State.advance_sp : s.advance.sp = s.sp := rfl
@[simp] theorem State.advance_DT : s.advance.DT = s.DT := rfl
@[simp] theorem State.advance_ST : s.advance.ST = s.ST := rfl
@[simp] theorem State.advance_disp : s.advance.disp = s.disp := rfl
@[simp] theorem State.advance_keys : s.advance.keys = s.keys := rfl
@[simp] theorem State.advance_run : s.advance.run = s.run := rfl
@[simp] theorem State.advance_keyEdge : s.advance.keyEdge = s.keyEdge := rfl
@[simp] theorem State.advance_cfg : s.advance.cfg = s.cfg := rfl
@[simp] theorem State.advance_sched : s.advance.sched = s.sched := rfl
@[simp] theorem State.advance_draws : s.advance.draws = s.draws := rfl
@[simp] theorem State.advance_outputs : s.advance.outputs = s.outputs := rfl

/-! ### State.skip -/

@[simp] theorem State.skip_mem : s.skip.mem = s.mem := rfl
@[simp] theorem State.skip_V : s.skip.V = s.V := rfl
@[simp] theorem State.skip_I : s.skip.I = s.I := rfl
@[simp] theorem State.skip_pc : s.skip.pc = s.pc + 2 := rfl
@[simp] theorem State.skip_stack : s.skip.stack = s.stack := rfl
@[simp] theorem State.skip_sp : s.skip.sp = s.sp := rfl
@[simp] theorem State.skip_DT : s.skip.DT = s.DT := rfl
@[simp] theorem State.skip_ST : s.skip.ST = s.ST := rfl
@[simp] theorem State.skip_disp : s.skip.disp = s.disp := rfl
@[simp] theorem State.skip_keys : s.skip.keys = s.keys := rfl
@[simp] theorem State.skip_run : s.skip.run = s.run := rfl
@[simp] theorem State.skip_keyEdge : s.skip.keyEdge = s.keyEdge := rfl
@[simp] theorem State.skip_cfg : s.skip.cfg = s.cfg := rfl
@[simp] theorem State.skip_sched : s.skip.sched = s.sched := rfl
@[simp] theorem State.skip_draws : s.skip.draws = s.draws := rfl
@[simp] theorem State.skip_outputs : s.skip.outputs = s.outputs := rfl

/-! ### State.skipIf -/

@[simp] theorem State.skipIf_mem (c : Bool) : (s.skipIf c).mem = s.mem := by cases c <;> rfl
@[simp] theorem State.skipIf_V (c : Bool) : (s.skipIf c).V = s.V := by cases c <;> rfl
@[simp] theorem State.skipIf_I (c : Bool) : (s.skipIf c).I = s.I := by cases c <;> rfl
@[simp] theorem State.skipIf_pc (c : Bool) :
    (s.skipIf c).pc = if c then s.pc + 2 else s.pc := by cases c <;> rfl
@[simp] theorem State.skipIf_stack (c : Bool) : (s.skipIf c).stack = s.stack := by cases c <;> rfl
@[simp] theorem State.skipIf_sp (c : Bool) : (s.skipIf c).sp = s.sp := by cases c <;> rfl
@[simp] theorem State.skipIf_DT (c : Bool) : (s.skipIf c).DT = s.DT := by cases c <;> rfl
@[simp] theorem State.skipIf_ST (c : Bool) : (s.skipIf c).ST = s.ST := by cases c <;> rfl
@[simp] theorem State.skipIf_disp (c : Bool) : (s.skipIf c).disp = s.disp := by cases c <;> rfl
@[simp] theorem State.skipIf_keys (c : Bool) : (s.skipIf c).keys = s.keys := by cases c <;> rfl
@[simp] theorem State.skipIf_run (c : Bool) : (s.skipIf c).run = s.run := by cases c <;> rfl
@[simp] theorem State.skipIf_keyEdge (c : Bool) : (s.skipIf c).keyEdge = s.keyEdge := by cases c <;> rfl
@[simp] theorem State.skipIf_cfg (c : Bool) : (s.skipIf c).cfg = s.cfg := by cases c <;> rfl
@[simp] theorem State.skipIf_sched (c : Bool) : (s.skipIf c).sched = s.sched := by cases c <;> rfl
@[simp] theorem State.skipIf_draws (c : Bool) : (s.skipIf c).draws = s.draws := by cases c <;> rfl
@[simp] theorem State.skipIf_outputs (c : Bool) : (s.skipIf c).outputs = s.outputs := by cases c <;> rfl

/-! ### State.setFlag -/

@[simp] theorem State.setFlag_mem (f : Bool) : (s.setFlag f).mem = s.mem := rfl
@[simp] theorem State.setFlag_V (f : Bool) : (s.setFlag f).V = s.V.set VF.toNat (flagByte f) VF.isLt := rfl
@[simp] theorem State.setFlag_I (f : Bool) : (s.setFlag f).I = s.I := rfl
@[simp] theorem State.setFlag_pc (f : Bool) : (s.setFlag f).pc = s.pc := rfl
@[simp] theorem State.setFlag_stack (f : Bool) : (s.setFlag f).stack = s.stack := rfl
@[simp] theorem State.setFlag_sp (f : Bool) : (s.setFlag f).sp = s.sp := rfl
@[simp] theorem State.setFlag_DT (f : Bool) : (s.setFlag f).DT = s.DT := rfl
@[simp] theorem State.setFlag_ST (f : Bool) : (s.setFlag f).ST = s.ST := rfl
@[simp] theorem State.setFlag_disp (f : Bool) : (s.setFlag f).disp = s.disp := rfl
@[simp] theorem State.setFlag_keys (f : Bool) : (s.setFlag f).keys = s.keys := rfl
@[simp] theorem State.setFlag_run (f : Bool) : (s.setFlag f).run = s.run := rfl
@[simp] theorem State.setFlag_keyEdge (f : Bool) : (s.setFlag f).keyEdge = s.keyEdge := rfl
@[simp] theorem State.setFlag_cfg (f : Bool) : (s.setFlag f).cfg = s.cfg := rfl
@[simp] theorem State.setFlag_sched (f : Bool) : (s.setFlag f).sched = s.sched := rfl
@[simp] theorem State.setFlag_draws (f : Bool) : (s.setFlag f).draws = s.draws := rfl
@[simp] theorem State.setFlag_outputs (f : Bool) : (s.setFlag f).outputs = s.outputs := rfl

/-! ### State.setVThenFlag -/

@[simp] theorem State.setVThenFlag_mem (x : Digit) (b : Byte) (f : Bool) :
    (s.setVThenFlag x b f).mem = s.mem := rfl
@[simp] theorem State.setVThenFlag_V (x : Digit) (b : Byte) (f : Bool) :
    (s.setVThenFlag x b f).V = ((s.setV x b).setFlag f).V := rfl
@[simp] theorem State.setVThenFlag_I (x : Digit) (b : Byte) (f : Bool) : (s.setVThenFlag x b f).I = s.I := rfl
@[simp] theorem State.setVThenFlag_pc (x : Digit) (b : Byte) (f : Bool) :
    (s.setVThenFlag x b f).pc = s.pc := rfl
@[simp] theorem State.setVThenFlag_stack (x : Digit) (b : Byte) (f : Bool) :
    (s.setVThenFlag x b f).stack = s.stack := rfl
@[simp] theorem State.setVThenFlag_sp (x : Digit) (b : Byte) (f : Bool) :
    (s.setVThenFlag x b f).sp = s.sp := rfl
@[simp] theorem State.setVThenFlag_DT (x : Digit) (b : Byte) (f : Bool) :
    (s.setVThenFlag x b f).DT = s.DT := rfl
@[simp] theorem State.setVThenFlag_ST (x : Digit) (b : Byte) (f : Bool) :
    (s.setVThenFlag x b f).ST = s.ST := rfl
@[simp] theorem State.setVThenFlag_disp (x : Digit) (b : Byte) (f : Bool) :
    (s.setVThenFlag x b f).disp = s.disp := rfl
@[simp] theorem State.setVThenFlag_keys (x : Digit) (b : Byte) (f : Bool) :
    (s.setVThenFlag x b f).keys = s.keys := rfl
@[simp] theorem State.setVThenFlag_run (x : Digit) (b : Byte) (f : Bool) :
    (s.setVThenFlag x b f).run = s.run := rfl
@[simp] theorem State.setVThenFlag_keyEdge (x : Digit) (b : Byte) (f : Bool) :
    (s.setVThenFlag x b f).keyEdge = s.keyEdge := rfl
@[simp] theorem State.setVThenFlag_cfg (x : Digit) (b : Byte) (f : Bool) :
    (s.setVThenFlag x b f).cfg = s.cfg := rfl
@[simp] theorem State.setVThenFlag_sched (x : Digit) (b : Byte) (f : Bool) :
    (s.setVThenFlag x b f).sched = s.sched := rfl
@[simp] theorem State.setVThenFlag_draws (x : Digit) (b : Byte) (f : Bool) :
    (s.setVThenFlag x b f).draws = s.draws := rfl
@[simp] theorem State.setVThenFlag_outputs (x : Digit) (b : Byte) (f : Bool) :
    (s.setVThenFlag x b f).outputs = s.outputs := rfl

/-! ### State.writeBytes -/

@[simp] theorem State.writeBytes_mem (a : Nat) (bs : List Byte) :
    (s.writeBytes a bs).mem = Memory.writeBytes s.mem a bs := rfl
@[simp] theorem State.writeBytes_V (a : Nat) (bs : List Byte) : (s.writeBytes a bs).V = s.V := rfl
@[simp] theorem State.writeBytes_I (a : Nat) (bs : List Byte) : (s.writeBytes a bs).I = s.I := rfl
@[simp] theorem State.writeBytes_pc (a : Nat) (bs : List Byte) : (s.writeBytes a bs).pc = s.pc := rfl
@[simp] theorem State.writeBytes_stack (a : Nat) (bs : List Byte) : (s.writeBytes a bs).stack = s.stack := rfl
@[simp] theorem State.writeBytes_sp (a : Nat) (bs : List Byte) : (s.writeBytes a bs).sp = s.sp := rfl
@[simp] theorem State.writeBytes_DT (a : Nat) (bs : List Byte) : (s.writeBytes a bs).DT = s.DT := rfl
@[simp] theorem State.writeBytes_ST (a : Nat) (bs : List Byte) : (s.writeBytes a bs).ST = s.ST := rfl
@[simp] theorem State.writeBytes_disp (a : Nat) (bs : List Byte) : (s.writeBytes a bs).disp = s.disp := rfl
@[simp] theorem State.writeBytes_keys (a : Nat) (bs : List Byte) : (s.writeBytes a bs).keys = s.keys := rfl
@[simp] theorem State.writeBytes_run (a : Nat) (bs : List Byte) : (s.writeBytes a bs).run = s.run := rfl
@[simp] theorem State.writeBytes_keyEdge (a : Nat) (bs : List Byte) :
    (s.writeBytes a bs).keyEdge = s.keyEdge := rfl
@[simp] theorem State.writeBytes_cfg (a : Nat) (bs : List Byte) : (s.writeBytes a bs).cfg = s.cfg := rfl
@[simp] theorem State.writeBytes_sched (a : Nat) (bs : List Byte) : (s.writeBytes a bs).sched = s.sched := rfl
@[simp] theorem State.writeBytes_draws (a : Nat) (bs : List Byte) : (s.writeBytes a bs).draws = s.draws := rfl
@[simp] theorem State.writeBytes_outputs (a : Nat) (bs : List Byte) :
    (s.writeBytes a bs).outputs = s.outputs := rfl

/-! ### State.emit -/

@[simp] theorem State.emit_mem (o : Output) : (s.emit o).mem = s.mem := rfl
@[simp] theorem State.emit_V (o : Output) : (s.emit o).V = s.V := rfl
@[simp] theorem State.emit_I (o : Output) : (s.emit o).I = s.I := rfl
@[simp] theorem State.emit_pc (o : Output) : (s.emit o).pc = s.pc := rfl
@[simp] theorem State.emit_stack (o : Output) : (s.emit o).stack = s.stack := rfl
@[simp] theorem State.emit_sp (o : Output) : (s.emit o).sp = s.sp := rfl
@[simp] theorem State.emit_DT (o : Output) : (s.emit o).DT = s.DT := rfl
@[simp] theorem State.emit_ST (o : Output) : (s.emit o).ST = s.ST := rfl
@[simp] theorem State.emit_disp (o : Output) : (s.emit o).disp = s.disp := rfl
@[simp] theorem State.emit_keys (o : Output) : (s.emit o).keys = s.keys := rfl
@[simp] theorem State.emit_run (o : Output) : (s.emit o).run = s.run := rfl
@[simp] theorem State.emit_keyEdge (o : Output) : (s.emit o).keyEdge = s.keyEdge := rfl
@[simp] theorem State.emit_cfg (o : Output) : (s.emit o).cfg = s.cfg := rfl
@[simp] theorem State.emit_sched (o : Output) : (s.emit o).sched = s.sched := rfl
@[simp] theorem State.emit_draws (o : Output) : (s.emit o).draws = s.draws := rfl
@[simp] theorem State.emit_outputs (o : Output) : (s.emit o).outputs = o :: s.outputs := rfl

/-! ### State.raise -/

@[simp] theorem State.raise_mem (cause : FaultCause) (opcode : Option Word) :
    (s.raise cause opcode).mem = s.mem := rfl
@[simp] theorem State.raise_V (cause : FaultCause) (opcode : Option Word) :
    (s.raise cause opcode).V = s.V := rfl
@[simp] theorem State.raise_I (cause : FaultCause) (opcode : Option Word) :
    (s.raise cause opcode).I = s.I := rfl
@[simp] theorem State.raise_pc (cause : FaultCause) (opcode : Option Word) :
    (s.raise cause opcode).pc = s.pc := rfl
@[simp] theorem State.raise_stack (cause : FaultCause) (opcode : Option Word) :
    (s.raise cause opcode).stack = s.stack := rfl
@[simp] theorem State.raise_sp (cause : FaultCause) (opcode : Option Word) :
    (s.raise cause opcode).sp = s.sp := rfl
@[simp] theorem State.raise_DT (cause : FaultCause) (opcode : Option Word) :
    (s.raise cause opcode).DT = s.DT := rfl
@[simp] theorem State.raise_ST (cause : FaultCause) (opcode : Option Word) :
    (s.raise cause opcode).ST = s.ST := rfl
@[simp] theorem State.raise_disp (cause : FaultCause) (opcode : Option Word) :
    (s.raise cause opcode).disp = s.disp := rfl
@[simp] theorem State.raise_keys (cause : FaultCause) (opcode : Option Word) :
    (s.raise cause opcode).keys = s.keys := rfl
@[simp] theorem State.raise_run (cause : FaultCause) (opcode : Option Word) :
    (s.raise cause opcode).run = .halted (.fault ⟨cause, s.pc, opcode⟩) := rfl
@[simp] theorem State.raise_keyEdge (cause : FaultCause) (opcode : Option Word) :
    (s.raise cause opcode).keyEdge = s.keyEdge := rfl
@[simp] theorem State.raise_cfg (cause : FaultCause) (opcode : Option Word) :
    (s.raise cause opcode).cfg = s.cfg := rfl
@[simp] theorem State.raise_sched (cause : FaultCause) (opcode : Option Word) :
    (s.raise cause opcode).sched = s.sched := rfl
@[simp] theorem State.raise_draws (cause : FaultCause) (opcode : Option Word) :
    (s.raise cause opcode).draws = s.draws := rfl
@[simp] theorem State.raise_outputs (cause : FaultCause) (opcode : Option Word) :
    (s.raise cause opcode).outputs = s.outputs := rfl

/-! ### State.raiseFor -/

@[simp] theorem State.raiseFor_mem (i : Instr) (cause : FaultCause) : (s.raiseFor i cause).mem = s.mem := rfl
@[simp] theorem State.raiseFor_V (i : Instr) (cause : FaultCause) : (s.raiseFor i cause).V = s.V := rfl
@[simp] theorem State.raiseFor_I (i : Instr) (cause : FaultCause) : (s.raiseFor i cause).I = s.I := rfl
@[simp] theorem State.raiseFor_pc (i : Instr) (cause : FaultCause) : (s.raiseFor i cause).pc = s.pc := rfl
@[simp] theorem State.raiseFor_stack (i : Instr) (cause : FaultCause) :
    (s.raiseFor i cause).stack = s.stack := rfl
@[simp] theorem State.raiseFor_sp (i : Instr) (cause : FaultCause) : (s.raiseFor i cause).sp = s.sp := rfl
@[simp] theorem State.raiseFor_DT (i : Instr) (cause : FaultCause) : (s.raiseFor i cause).DT = s.DT := rfl
@[simp] theorem State.raiseFor_ST (i : Instr) (cause : FaultCause) : (s.raiseFor i cause).ST = s.ST := rfl
@[simp] theorem State.raiseFor_disp (i : Instr) (cause : FaultCause) :
    (s.raiseFor i cause).disp = s.disp := rfl
@[simp] theorem State.raiseFor_keys (i : Instr) (cause : FaultCause) :
    (s.raiseFor i cause).keys = s.keys := rfl
@[simp] theorem State.raiseFor_run (i : Instr) (cause : FaultCause) :
    (s.raiseFor i cause).run = .halted (.fault ⟨cause, s.pc, some i.encode⟩) := rfl
@[simp] theorem State.raiseFor_keyEdge (i : Instr) (cause : FaultCause) :
    (s.raiseFor i cause).keyEdge = s.keyEdge := rfl
@[simp] theorem State.raiseFor_cfg (i : Instr) (cause : FaultCause) : (s.raiseFor i cause).cfg = s.cfg := rfl
@[simp] theorem State.raiseFor_sched (i : Instr) (cause : FaultCause) :
    (s.raiseFor i cause).sched = s.sched := rfl
@[simp] theorem State.raiseFor_draws (i : Instr) (cause : FaultCause) :
    (s.raiseFor i cause).draws = s.draws := rfl
@[simp] theorem State.raiseFor_outputs (i : Instr) (cause : FaultCause) :
    (s.raiseFor i cause).outputs = s.outputs := rfl

/-! ### State.beginWait -/

@[simp] theorem State.beginWait_mem (x : Digit) : (s.beginWait x).mem = s.mem := rfl
@[simp] theorem State.beginWait_V (x : Digit) : (s.beginWait x).V = s.V := rfl
@[simp] theorem State.beginWait_I (x : Digit) : (s.beginWait x).I = s.I := rfl
@[simp] theorem State.beginWait_pc (x : Digit) : (s.beginWait x).pc = s.pc := rfl
@[simp] theorem State.beginWait_stack (x : Digit) : (s.beginWait x).stack = s.stack := rfl
@[simp] theorem State.beginWait_sp (x : Digit) : (s.beginWait x).sp = s.sp := rfl
@[simp] theorem State.beginWait_DT (x : Digit) : (s.beginWait x).DT = s.DT := rfl
@[simp] theorem State.beginWait_ST (x : Digit) : (s.beginWait x).ST = s.ST := rfl
@[simp] theorem State.beginWait_disp (x : Digit) : (s.beginWait x).disp = s.disp := rfl
@[simp] theorem State.beginWait_keys (x : Digit) : (s.beginWait x).keys = s.keys := rfl
@[simp] theorem State.beginWait_run (x : Digit) : (s.beginWait x).run = .awaitingKey x := rfl
@[simp] theorem State.beginWait_keyEdge (x : Digit) : (s.beginWait x).keyEdge = noEdges := rfl
@[simp] theorem State.beginWait_cfg (x : Digit) : (s.beginWait x).cfg = s.cfg := rfl
@[simp] theorem State.beginWait_sched (x : Digit) : (s.beginWait x).sched = s.sched := rfl
@[simp] theorem State.beginWait_draws (x : Digit) : (s.beginWait x).draws = s.draws := rfl
@[simp] theorem State.beginWait_outputs (x : Digit) : (s.beginWait x).outputs = s.outputs := rfl

/-! ### State.completeWait -/

@[simp] theorem State.completeWait_mem (x k : Digit) : (s.completeWait x k).mem = s.mem := rfl
@[simp] theorem State.completeWait_V (x k : Digit) :
    (s.completeWait x k).V = (s.setV x (k.setWidth 8)).V := rfl
@[simp] theorem State.completeWait_I (x k : Digit) : (s.completeWait x k).I = s.I := rfl
@[simp] theorem State.completeWait_pc (x k : Digit) : (s.completeWait x k).pc = s.pc := rfl
@[simp] theorem State.completeWait_stack (x k : Digit) : (s.completeWait x k).stack = s.stack := rfl
@[simp] theorem State.completeWait_sp (x k : Digit) : (s.completeWait x k).sp = s.sp := rfl
@[simp] theorem State.completeWait_DT (x k : Digit) : (s.completeWait x k).DT = s.DT := rfl
@[simp] theorem State.completeWait_ST (x k : Digit) : (s.completeWait x k).ST = s.ST := rfl
@[simp] theorem State.completeWait_disp (x k : Digit) : (s.completeWait x k).disp = s.disp := rfl
@[simp] theorem State.completeWait_keys (x k : Digit) : (s.completeWait x k).keys = s.keys := rfl
@[simp] theorem State.completeWait_run (x k : Digit) : (s.completeWait x k).run = .running := rfl
@[simp] theorem State.completeWait_keyEdge (x k : Digit) : (s.completeWait x k).keyEdge = noEdges := rfl
@[simp] theorem State.completeWait_cfg (x k : Digit) : (s.completeWait x k).cfg = s.cfg := rfl
@[simp] theorem State.completeWait_sched (x k : Digit) : (s.completeWait x k).sched = s.sched := rfl
@[simp] theorem State.completeWait_draws (x k : Digit) : (s.completeWait x k).draws = s.draws + 1 := rfl
@[simp] theorem State.completeWait_outputs (x k : Digit) : (s.completeWait x k).outputs = s.outputs := rfl

/-! ### State.tickTimers -/

@[simp] theorem State.tickTimers_mem : s.tickTimers.mem = s.mem := rfl
@[simp] theorem State.tickTimers_V : s.tickTimers.V = s.V := rfl
@[simp] theorem State.tickTimers_I : s.tickTimers.I = s.I := rfl
@[simp] theorem State.tickTimers_pc : s.tickTimers.pc = s.pc := rfl
@[simp] theorem State.tickTimers_stack : s.tickTimers.stack = s.stack := rfl
@[simp] theorem State.tickTimers_sp : s.tickTimers.sp = s.sp := rfl
@[simp] theorem State.tickTimers_DT : s.tickTimers.DT = countDown s.DT := rfl
@[simp] theorem State.tickTimers_ST : s.tickTimers.ST = countDown s.ST := rfl
@[simp] theorem State.tickTimers_disp : s.tickTimers.disp = s.disp := rfl
@[simp] theorem State.tickTimers_keys : s.tickTimers.keys = s.keys := rfl
@[simp] theorem State.tickTimers_run : s.tickTimers.run = s.run := rfl
@[simp] theorem State.tickTimers_keyEdge : s.tickTimers.keyEdge = s.keyEdge := rfl
@[simp] theorem State.tickTimers_cfg : s.tickTimers.cfg = s.cfg := rfl
@[simp] theorem State.tickTimers_sched : s.tickTimers.sched = s.sched := rfl
@[simp] theorem State.tickTimers_draws : s.tickTimers.draws = s.draws := rfl
@[simp] theorem State.tickTimers_outputs : s.tickTimers.outputs = s.outputs := rfl

/-! ### Reading a register after a write -/

@[simp] theorem State.getV_setV (x y : Digit) (b : Byte) :
    (s.setV x b).getV y = if x = y then b else s.getV y := by
  simp [State.getV, State.setV, Vector.getElem_set, BitVec.toNat_inj]

@[simp] theorem State.getV_setFlag (f : Bool) (y : Digit) :
    (s.setFlag f).getV y = if VF = y then flagByte f else s.getV y := by
  simp [State.setFlag]

@[simp] theorem State.getV_setVThenFlag (x y : Digit) (b : Byte) (f : Bool) :
    (s.setVThenFlag x b f).getV y =
      if VF = y then flagByte f else if x = y then b else s.getV y := by
  simp [State.setVThenFlag]

/-- A register read depends on V alone. -/
theorem State.getV_congr {s t : State} (h : t.V = s.V) (y : Digit) : t.getV y = s.getV y := by
  simp [State.getV, h]

@[simp] theorem State.getV_setRegs (v : Vector Byte 16) (y : Digit) :
    (s.setRegs v).getV y = v[y.toNat]'y.isLt := rfl

@[simp] theorem State.getV_completeWait (x k y : Digit) :
    (s.completeWait x k).getV y = if x = y then k.setWidth 8 else s.getV y := by
  rw [State.getV_congr (State.completeWait_V s x k), State.getV_setV]

/-- A memory read depends on the memory alone. -/
theorem State.readByte_congr {s t : State} (h : t.mem = s.mem) (a : Nat) :
    t.readByte a = s.readByte a := by
  simp [State.readByte, h]

/-! ### Registers and bytes that an update of other fields leaves -/

@[simp] theorem State.getV_setI (w : Word) (y : Digit) :
    (s.setI w).getV y = s.getV y := State.getV_congr (State.setI_V s w) y
@[simp] theorem State.getV_setDT (b : Byte) (y : Digit) :
    (s.setDT b).getV y = s.getV y := State.getV_congr (State.setDT_V s b) y
@[simp] theorem State.getV_setST (b : Byte) (y : Digit) :
    (s.setST b).getV y = s.getV y := State.getV_congr (State.setST_V s b) y
@[simp] theorem State.getV_setDisp (d : Display) (y : Digit) :
    (s.setDisp d).getV y = s.getV y := State.getV_congr (State.setDisp_V s d) y
@[simp] theorem State.getV_countDraw (y : Digit) :
    s.countDraw.getV y = s.getV y := State.getV_congr (State.countDraw_V s) y
@[simp] theorem State.getV_setPc (w : Word) (y : Digit) :
    (s.setPc w).getV y = s.getV y := State.getV_congr (State.setPc_V s w) y
@[simp] theorem State.getV_advance (y : Digit) :
    s.advance.getV y = s.getV y := State.getV_congr (State.advance_V s) y
@[simp] theorem State.getV_skip (y : Digit) :
    s.skip.getV y = s.getV y := State.getV_congr (State.skip_V s) y
@[simp] theorem State.getV_skipIf (c : Bool) (y : Digit) :
    (s.skipIf c).getV y = s.getV y := State.getV_congr (State.skipIf_V s c) y
@[simp] theorem State.getV_writeBytes (a : Nat) (bs : List Byte) (y : Digit) :
    (s.writeBytes a bs).getV y = s.getV y := State.getV_congr (State.writeBytes_V s a bs) y
@[simp] theorem State.getV_emit (o : Output) (y : Digit) :
    (s.emit o).getV y = s.getV y := State.getV_congr (State.emit_V s o) y
@[simp] theorem State.getV_raise (cause : FaultCause) (opcode : Option Word) (y : Digit) :
    (s.raise cause opcode).getV y = s.getV y := State.getV_congr (State.raise_V s cause opcode) y
@[simp] theorem State.getV_raiseFor (i : Instr) (cause : FaultCause) (y : Digit) :
    (s.raiseFor i cause).getV y = s.getV y := State.getV_congr (State.raiseFor_V s i cause) y
@[simp] theorem State.getV_beginWait (x : Digit) (y : Digit) :
    (s.beginWait x).getV y = s.getV y := State.getV_congr (State.beginWait_V s x) y
@[simp] theorem State.getV_tickTimers (y : Digit) :
    s.tickTimers.getV y = s.getV y := State.getV_congr (State.tickTimers_V s) y

@[simp] theorem State.readByte_setV (x : Digit) (b : Byte) (y : Nat) :
    (s.setV x b).readByte y = s.readByte y := State.readByte_congr (State.setV_mem s x b) y
@[simp] theorem State.readByte_setRegs (v : Vector Byte 16) (y : Nat) :
    (s.setRegs v).readByte y = s.readByte y := State.readByte_congr (State.setRegs_mem s v) y
@[simp] theorem State.readByte_setI (w : Word) (y : Nat) :
    (s.setI w).readByte y = s.readByte y := State.readByte_congr (State.setI_mem s w) y
@[simp] theorem State.readByte_setDT (b : Byte) (y : Nat) :
    (s.setDT b).readByte y = s.readByte y := State.readByte_congr (State.setDT_mem s b) y
@[simp] theorem State.readByte_setST (b : Byte) (y : Nat) :
    (s.setST b).readByte y = s.readByte y := State.readByte_congr (State.setST_mem s b) y
@[simp] theorem State.readByte_setDisp (d : Display) (y : Nat) :
    (s.setDisp d).readByte y = s.readByte y := State.readByte_congr (State.setDisp_mem s d) y
@[simp] theorem State.readByte_countDraw (y : Nat) :
    s.countDraw.readByte y = s.readByte y := State.readByte_congr (State.countDraw_mem s) y
@[simp] theorem State.readByte_setPc (w : Word) (y : Nat) :
    (s.setPc w).readByte y = s.readByte y := State.readByte_congr (State.setPc_mem s w) y
@[simp] theorem State.readByte_advance (y : Nat) :
    s.advance.readByte y = s.readByte y := State.readByte_congr (State.advance_mem s) y
@[simp] theorem State.readByte_skip (y : Nat) :
    s.skip.readByte y = s.readByte y := State.readByte_congr (State.skip_mem s) y
@[simp] theorem State.readByte_skipIf (c : Bool) (y : Nat) :
    (s.skipIf c).readByte y = s.readByte y := State.readByte_congr (State.skipIf_mem s c) y
@[simp] theorem State.readByte_setFlag (f : Bool) (y : Nat) :
    (s.setFlag f).readByte y = s.readByte y := State.readByte_congr (State.setFlag_mem s f) y
@[simp] theorem State.readByte_setVThenFlag (x : Digit) (b : Byte) (f : Bool) (y : Nat) :
    (s.setVThenFlag x b f).readByte y = s.readByte y := State.readByte_congr (State.setVThenFlag_mem s x b f) y
@[simp] theorem State.readByte_emit (o : Output) (y : Nat) :
    (s.emit o).readByte y = s.readByte y := State.readByte_congr (State.emit_mem s o) y
@[simp] theorem State.readByte_raise (cause : FaultCause) (opcode : Option Word) (y : Nat) :
    (s.raise cause opcode).readByte y = s.readByte y := State.readByte_congr (State.raise_mem s cause opcode) y
@[simp] theorem State.readByte_raiseFor (i : Instr) (cause : FaultCause) (y : Nat) :
    (s.raiseFor i cause).readByte y = s.readByte y := State.readByte_congr (State.raiseFor_mem s i cause) y
@[simp] theorem State.readByte_beginWait (x : Digit) (y : Nat) :
    (s.beginWait x).readByte y = s.readByte y := State.readByte_congr (State.beginWait_mem s x) y
@[simp] theorem State.readByte_completeWait (x k : Digit) (y : Nat) :
    (s.completeWait x k).readByte y = s.readByte y := State.readByte_congr (State.completeWait_mem s x k) y
@[simp] theorem State.readByte_tickTimers (y : Nat) :
    s.tickTimers.readByte y = s.readByte y := State.readByte_congr (State.tickTimers_mem s) y

end Sys2Proof.Machine
end

