-- ==== Sys2Proof/Laws/Ops.lean ====
section
/-! SUPPORT. One lemma per shared operation: everything it can do. -/

namespace Sys2Proof.Machine

variable (s : State)

/-! ### Stack -/

/-- A push with a free entry. -/
theorem State.push_of_lt (w : Word) (h : s.sp.val < 16) :
    s.push w = some { s with stack := s.stack.set s.sp.val w h, sp := ⟨s.sp.val + 1, by omega⟩ } :=
  dif_pos h

/-- A push with 16 entries in use. -/
theorem State.push_of_full (w : Word) (h : s.sp.val = 16) : s.push w = none :=
  dif_neg (by omega)

/-- A pop with an entry in use. -/
theorem State.pop_of_pos (h : 0 < s.sp.val) :
    s.pop = some (s.stack[s.sp.val - 1]'(by omega), { s with sp := ⟨s.sp.val - 1, by omega⟩ }) :=
  dif_neg (by omega)

/-- A pop of the empty stack. -/
theorem State.pop_of_empty (h : s.sp.val = 0) : s.pop = none := dif_pos h

/-! ### The check of an access at I -/

theorem State.spanInRange_iff (n : Nat) :
    s.spanInRange n = true ↔ n = 0 ∨ s.I.toNat + (n - 1) ≤ 0xFFF := by
  simp [State.spanInRange, State.lastAddress, State.ea, inRange_iff]

/-- The bytes read at I, one by one. -/
theorem State.bytesAtI_length (n : Nat) : (s.bytesAtI n).length = n := by
  simp [State.bytesAtI]

theorem State.getElem_bytesAtI (n k : Nat) (h : k < (s.bytesAtI n).length) :
    (s.bytesAtI n)[k] = s.readByte (s.I.toNat + k) := by
  simp [State.bytesAtI, State.ea]

/-- The registers stored by Fx55. -/
theorem State.regsUpTo_length (x : Digit) : (s.regsUpTo x).length = x.toNat + 1 := by
  simp only [State.regsUpTo, List.length_take, Vector.length_toList]
  have := x.isLt
  omega

theorem State.getElem_regsUpTo (x : Digit) (k : Nat) (h : k < (s.regsUpTo x).length) :
    (s.regsUpTo x)[k] = s.V[k]'(by rw [State.regsUpTo_length] at h; have := x.isLt; omega) := by
  simp [State.regsUpTo]

/-! ### The key index -/

theorem keyIndex_of_le (p : KeyIndexPolicy) (v : Byte) (h : v.toNat ≤ 0xF) :
    keyIndex p v = some (v.setWidth 4) := if_pos h

theorem keyIndex_of_gt (p : KeyIndexPolicy) (v : Byte) (h : v.toNat > 0xF) :
    keyIndex p v = match p with | .fault => none | .lowNibble => some (v.setWidth 4) :=
  if_neg (by omega)

/-- Ex9E and ExA1: the fault the policy makes, or a skip on the state of one key. -/
theorem State.skipOnKey_cases (i : Instr) (x : Digit) (pressed : Bool) :
    (s.cfg.keyIndexPolicy = .fault ∧ (s.getV x).toNat > 0xF ∧
      s.skipOnKey i x pressed = s.raiseFor i (.keyIndexOutOfRange (s.getV x))) ∨
    s.skipOnKey i x pressed =
      s.advance.skipIf (s.keyDown ((s.getV x).setWidth 4) == pressed) := by
  unfold State.skipOnKey
  by_cases h : (s.getV x).toNat ≤ 0xF
  · exact .inr (by rw [keyIndex_of_le _ _ h])
  · rw [keyIndex_of_gt _ _ (by omega)]
    cases hp : s.cfg.keyIndexPolicy with
    | fault => exact .inl ⟨rfl, by omega, rfl⟩
    | lowNibble => exact .inr rfl

/-! ### Pixels -/

/-- A pixel after one is inverted. -/
theorem Display.get_toggle (d : Display) (r r' : Fin 32) (c c' : Fin 64) :
    Display.get (Display.toggle d r c) r' c' =
      if r = r' ∧ c = c' then !Display.get d r' c' else Display.get d r' c' := by
  unfold Display.get Display.toggle
  simp only [Fin.getElem_fin, Vector.getElem_set, Fin.ext_iff]
  by_cases hr : r.val = r'.val
  · simp only [hr, if_true, true_and, Vector.getElem_set]
    by_cases hc : c.val = c'.val <;> simp [hc]
  · simp [hr]

/-- Two displays with the same pixels are the same. -/
theorem Display.ext_get (d e : Display) (h : ∀ r c, Display.get d r c = Display.get e r c) : d = e := by
  refine Vector.ext fun r hr => Vector.ext fun c hc => ?_
  exact h ⟨r, hr⟩ ⟨c, hc⟩

/-! ### Flags and memory words -/

theorem flagByte_toNat (f : Bool) : (flagByte f).toNat = if f then 1 else 0 := by
  cases f <;> rfl

end Sys2Proof.Machine
end

