-- ==== Sys2Proof/Laws/Display.lean ====
section
/-! SUPPORT. The sprite draw as a list of pixels inverted in turn: which pixels, that none comes twice
(44_display.md R234), and what inverting such a list leaves. -/

namespace Sys2Proof.Machine

/-- One pixel inverted, with the collision it makes. -/
def invertPixel (p : Drawing) (q : Fin 32 × Fin 64) : Drawing :=
  (Display.toggle p.1 q.1 q.2, p.2 || Display.get p.1 q.1 q.2)

/-- The pixels a sprite byte covers at row r from column c. -/
def bytePixels (edge : DrawEdge) (r c : Nat) (b : Byte) : List (Fin 32 × Fin 64) :=
  (List.range 8).filterMap fun col =>
    if b.getLsbD (7 - col) then pixelAt edge r (c + col) else none

/-- The pixels the sprite's bytes cover from row r and column c. -/
def rowsPixels (edge : DrawEdge) (c : Nat) : Nat → List Byte → List (Fin 32 × Fin 64)
  | _, [] => []
  | r, b :: bs => bytePixels edge r c b ++ rowsPixels edge c (r + 1) bs

theorem drawByte_eq_fold (edge : DrawEdge) (r c : Nat) (b : Byte) (p : Drawing) :
    drawByte edge r c b p = (bytePixels edge r c b).foldl invertPixel p := by
  unfold drawByte bytePixels
  generalize List.range 8 = L
  induction L generalizing p with
  | nil => rfl
  | cons a L ih =>
    rw [List.foldl_cons, ih, List.filterMap_cons]
    by_cases h : b.getLsbD (7 - a) = true
    · simp only [h, if_true, drawBit]
      cases pixelAt edge r (c + a) <;> rfl
    · simp [h]

theorem drawRows_eq_fold (edge : DrawEdge) (c r : Nat) (bs : List Byte) (p : Drawing) :
    drawRows edge c r bs p = (rowsPixels edge c r bs).foldl invertPixel p := by
  induction bs generalizing r p with
  | nil => rfl
  | cons b bs ih => rw [drawRows, ih, drawByte_eq_fold, rowsPixels, List.foldl_append]

/-- Where a bit falls, by edge mode (44_display.md R232, R234). -/
theorem pixelAt_eq_some (edge : DrawEdge) (r c : Nat) (q : Fin 32 × Fin 64) :
    pixelAt edge r c = some q ↔
      match edge with
      | .clip => q.1.val = r ∧ q.2.val = c
      | .wrap => q.1.val = r % 32 ∧ q.2.val = c % 64 := by
  obtain ⟨⟨a, ha⟩, ⟨b, hb⟩⟩ := q
  unfold pixelAt
  cases edge with
  | clip =>
    simp only
    split
    · simp [eq_comm]
    · simp; omega
  | wrap => simp [eq_comm]

theorem mem_bytePixels (edge : DrawEdge) (r c : Nat) (b : Byte) (q : Fin 32 × Fin 64) :
    q ∈ bytePixels edge r c b ↔
      ∃ col < 8, b.getLsbD (7 - col) = true ∧ pixelAt edge r (c + col) = some q := by
  unfold bytePixels
  rw [List.mem_filterMap]
  constructor
  · rintro ⟨a, ha, h⟩
    split at h
    · exact ⟨a, by simpa using ha, by assumption, h⟩
    · cases h
  · rintro ⟨a, ha, h1, h2⟩
    exact ⟨a, by simpa using ha, by rw [if_pos h1]; exact h2⟩

theorem mem_rowsPixels (edge : DrawEdge) (c r : Nat) (bs : List Byte) (q : Fin 32 × Fin 64) :
    q ∈ rowsPixels edge c r bs ↔
      ∃ k, ∃ h : k < bs.length, ∃ col < 8,
        (bs[k]).getLsbD (7 - col) = true ∧ pixelAt edge (r + k) (c + col) = some q := by
  induction bs generalizing r with
  | nil => simp [rowsPixels]
  | cons b bs ih =>
    rw [rowsPixels, List.mem_append, mem_bytePixels, ih]
    constructor
    · rintro (⟨col, h1, h2, h3⟩ | ⟨k, hk, col, h1, h2, h3⟩)
      · exact ⟨0, by simp, col, h1, h2, h3⟩
      · exact ⟨k + 1, by simp; omega, col, h1, by simpa using h2, by rw [← h3]; congr 1; omega⟩
    · rintro ⟨k, hk, col, h1, h2, h3⟩
      cases k with
      | zero => exact .inl ⟨col, h1, h2, h3⟩
      | succ k =>
        exact .inr ⟨k, by simpa using hk, col, h1, by simpa using h2, by rw [← h3]; congr 1; omega⟩

theorem bytePixels_nodup (edge : DrawEdge) (r c : Nat) (b : Byte) : (bytePixels edge r c b).Nodup := by
  unfold bytePixels
  rw [List.nodup_iff_pairwise_ne, List.pairwise_filterMap]
  refine List.Pairwise.imp_of_mem ?_ (List.nodup_range (n := 8))
  intro a a' ha ha' hne q hq q' hq' e
  subst e
  simp at ha ha' hq hq'
  have := (pixelAt_eq_some _ _ _ _).1 hq.2
  have := (pixelAt_eq_some _ _ _ _).1 hq'.2
  cases edge <;> simp_all
  omega

/-- No pixel is visited twice by one draw, in either edge mode (44_display.md R234). -/
theorem rowsPixels_nodup (edge : DrawEdge) (c r : Nat) (bs : List Byte) (hl : bs.length ≤ 15) :
    (rowsPixels edge c r bs).Nodup := by
  induction bs generalizing r with
  | nil => simp [rowsPixels]
  | cons b bs ih =>
    simp only [List.length_cons] at hl
    rw [rowsPixels, List.nodup_append]
    refine ⟨bytePixels_nodup .., ih (r + 1) (by omega), ?_⟩
    intro q hq q' hq' e
    subst e
    rw [mem_bytePixels] at hq
    rw [mem_rowsPixels] at hq'
    obtain ⟨_, _, _, h1⟩ := hq
    obtain ⟨k, hk, _, _, _, h2⟩ := hq'
    have := (pixelAt_eq_some _ _ _ _).1 h1
    have := (pixelAt_eq_some _ _ _ _).1 h2
    cases edge <;> simp_all <;> omega

/-- A list of different pixels inverted in turn: those pixels are inverted and no other, and there is a
collision exactly when one of them was on. -/
theorem fold_invertPixel (P : List (Fin 32 × Fin 64)) (p : Drawing) (hn : P.Nodup) :
    (∀ r c, Display.get (P.foldl invertPixel p).1 r c =
      if (r, c) ∈ P then !Display.get p.1 r c else Display.get p.1 r c) ∧
    ((P.foldl invertPixel p).2 = true ↔
      p.2 = true ∨ ∃ q ∈ P, Display.get p.1 q.1 q.2 = true) := by
  induction P generalizing p with
  | nil => simp
  | cons q P ih =>
    have hq := (List.nodup_cons.1 hn).1
    obtain ⟨h1, h2⟩ := ih (invertPixel p q) (List.nodup_cons.1 hn).2
    have hother : ∀ a ∈ P, Display.get (Display.toggle p.1 q.1 q.2) a.1 a.2 = Display.get p.1 a.1 a.2 := by
      intro a ha
      rw [Display.get_toggle, if_neg]
      rintro ⟨e1, e2⟩
      exact hq (by rw [show q = a from Prod.ext e1 e2]; exact ha)
    constructor
    · intro r c
      rw [List.foldl_cons, h1]
      simp only [invertPixel, Display.get_toggle, List.mem_cons]
      by_cases hqq : (r, c) = q
      · subst hqq; simp [hq]
      · have : ¬ (q.1 = r ∧ q.2 = c) := fun h => hqq (Prod.ext h.1.symm h.2.symm)
        simp [hqq, this]
    · rw [List.foldl_cons, h2]
      simp only [invertPixel, Bool.or_eq_true, List.mem_cons, exists_eq_or_imp, or_assoc]
      refine or_congr Iff.rfl (or_congr Iff.rfl (exists_congr fun a => and_congr_right fun ha => ?_))
      rw [hother a ha]

end Sys2Proof.Machine
end

