-- ==== Sys2Proof/Laws/Encoding.lean ====
section
/-! SUPPORT. The fields of a word built from fields (30_encoding.md R81, R82), and the bytes of a word. -/

namespace Sys2Proof

/-! ### Bit i of a built word -/

theorem Word.bit_ofNnn (op : Digit) (nnn : Addr12) (i : Nat) :
    (Word.ofNnn op nnn).getLsbD i = if i < 12 then nnn.getLsbD i else op.getLsbD (i - 12) :=
  BitVec.getLsbD_append

theorem Word.bit_ofXnn (op x : Digit) (nn : Byte) (i : Nat) :
    (Word.ofXnn op x nn).getLsbD i =
      if i < 12 then (if i < 8 then nn.getLsbD i else x.getLsbD (i - 8)) else op.getLsbD (i - 12) := by
  rw [← show (x ++ nn).getLsbD i = _ from BitVec.getLsbD_append]
  exact BitVec.getLsbD_append

theorem Word.bit_ofXyn (op x y n : Digit) (i : Nat) :
    (Word.ofXyn op x y n).getLsbD i =
      if i < 12 then
        (if i < 8 then (if i < 4 then n.getLsbD i else y.getLsbD (i - 4)) else x.getLsbD (i - 8))
      else op.getLsbD (i - 12) := by
  rw [← show (y ++ n).getLsbD i = _ from BitVec.getLsbD_append]
  rw [← show (x ++ (y ++ n)).getLsbD i = _ from BitVec.getLsbD_append]
  exact BitVec.getLsbD_append

theorem Word.bit_ofBytes (hi lo : Byte) (i : Nat) :
    (Word.ofBytes hi lo).getLsbD i = if i < 8 then lo.getLsbD i else hi.getLsbD (i - 8) :=
  BitVec.getLsbD_append

/-! ### The fields of a built word -/

theorem Word.op_ofNnn (op : Digit) (nnn : Addr12) : (Word.ofNnn op nnn).op = op := by
  refine BitVec.eq_of_getLsbD_eq fun i hi => ?_
  simp [Word.op, Word.bit_ofNnn, hi]

theorem Word.nnn_ofNnn (op : Digit) (nnn : Addr12) : (Word.ofNnn op nnn).nnn = nnn := by
  refine BitVec.eq_of_getLsbD_eq fun i hi => ?_
  simp [Word.nnn, Word.bit_ofNnn, hi]

theorem Word.op_ofXnn (op x : Digit) (nn : Byte) : (Word.ofXnn op x nn).op = op := by
  refine BitVec.eq_of_getLsbD_eq fun i hi => ?_
  simp [Word.op, Word.bit_ofXnn, hi]

theorem Word.x_ofXnn (op x : Digit) (nn : Byte) : (Word.ofXnn op x nn).x = x := by
  refine BitVec.eq_of_getLsbD_eq fun i hi => ?_
  simp [Word.x, Word.bit_ofXnn, hi, show 8 + i < 12 by omega]

theorem Word.nn_ofXnn (op x : Digit) (nn : Byte) : (Word.ofXnn op x nn).nn = nn := by
  refine BitVec.eq_of_getLsbD_eq fun i hi => ?_
  simp [Word.nn, Word.bit_ofXnn, hi, show i < 12 by omega]

theorem Word.op_ofXyn (op x y n : Digit) : (Word.ofXyn op x y n).op = op := by
  refine BitVec.eq_of_getLsbD_eq fun i hi => ?_
  simp [Word.op, Word.bit_ofXyn, hi]

theorem Word.x_ofXyn (op x y n : Digit) : (Word.ofXyn op x y n).x = x := by
  refine BitVec.eq_of_getLsbD_eq fun i hi => ?_
  simp [Word.x, Word.bit_ofXyn, hi, show 8 + i < 12 by omega]

theorem Word.y_ofXyn (op x y n : Digit) : (Word.ofXyn op x y n).y = y := by
  refine BitVec.eq_of_getLsbD_eq fun i hi => ?_
  simp [Word.y, Word.bit_ofXyn, hi, show 4 + i < 12 by omega, show 4 + i < 8 by omega]

theorem Word.n_ofXyn (op x y n : Digit) : (Word.ofXyn op x y n).n = n := by
  refine BitVec.eq_of_getLsbD_eq fun i hi => ?_
  simp [Word.n, Word.bit_ofXyn, hi, show i < 12 by omega, show i < 8 by omega]

/-! ### A word from its fields and from its bytes -/

/-- A word is its family nibble and its nnn field. -/
theorem Word.ofNnn_fields (w : Word) : Word.ofNnn w.op w.nnn = w := by
  refine BitVec.eq_of_getLsbD_eq fun i hi => ?_
  rw [Word.bit_ofNnn]
  split
  · simp [Word.nnn, *]
  · simp [Word.op, show 12 + (i - 12) = i by omega, show i - 12 < 4 by omega]

/-- A word is its family nibble, its x field and its nn field. -/
theorem Word.ofXnn_fields (w : Word) : Word.ofXnn w.op w.x w.nn = w := by
  refine BitVec.eq_of_getLsbD_eq fun i hi => ?_
  rw [Word.bit_ofXnn]
  split
  · split
    · simp [Word.nn, *]
    · simp [Word.x, show 8 + (i - 8) = i by omega, show i - 8 < 4 by omega]
  · simp [Word.op, show 12 + (i - 12) = i by omega, show i - 12 < 4 by omega]

/-- A word is its four nibbles. -/
theorem Word.ofXyn_fields (w : Word) : Word.ofXyn w.op w.x w.y w.n = w := by
  refine BitVec.eq_of_getLsbD_eq fun i hi => ?_
  rw [Word.bit_ofXyn]
  split
  · split
    · split
      · simp [Word.n, *]
      · simp [Word.y, show 4 + (i - 4) = i by omega, show i - 4 < 4 by omega]
    · simp [Word.x, show 8 + (i - 8) = i by omega, show i - 8 < 4 by omega]
  · simp [Word.op, show 12 + (i - 12) = i by omega, show i - 12 < 4 by omega]

/-- A word is its two bytes, the high one first (20_memory.md R64). -/
theorem Word.ofBytes_hi_lo (w : Word) : Word.ofBytes w.hi w.lo = w := by
  refine BitVec.eq_of_getLsbD_eq fun i hi => ?_
  rw [Word.bit_ofBytes]
  split
  · simp [Word.lo, *]
  · simp [Word.hi, show 8 + (i - 8) = i by omega, show i - 8 < 8 by omega]

end Sys2Proof
end

