-- ==== Sys2Proof/Laws/PerInstr.lean ====
section
/-! SUPPORT. The family OpcodeRows: every instruction's word matches its own row of the opcode map
(30_encoding.md R85), one lemma per constructor. -/

namespace Sys2Proof.Laws.OpcodeRows

/-- An instruction's row is a row of the opcode map, and its word passes that row's test. -/
def Statement (i : Instr) : Prop := i.row ∈ opcodeTable ∧ i.row.matchesWord i.encode = true

/-- A word passes a row's test when it agrees with the row at every bit of the mask. -/
theorem matchesWord_of_bits (r : OpcodeRow) (w : Word)
    (h : ∀ i < 16, (w.getLsbD i && r.mask.getLsbD i) = r.pattern.getLsbD i) :
    r.matchesWord w = true := by
  unfold OpcodeRow.matchesWord
  refine beq_iff_eq.2 (BitVec.eq_of_getLsbD_eq fun i hi => ?_)
  rw [BitVec.getLsbD_and]
  exact h i hi

theorem cls : Statement (.cls) := by
  exact ⟨by decide, by decide⟩

theorem ret : Statement (.ret) := by
  exact ⟨by decide, by decide⟩

theorem jp (nnn : Addr12) : Statement (.jp nnn) := by
  refine ⟨by simp [Instr.row, opcodeTable, opcodeRows0to8, opcodeRows9toF], matchesWord_of_bits _ _ ?_⟩
  intro i hi
  simp only [Instr.encode, Instr.row, Word.bit_ofNnn]
  interval_cases i <;> simp

theorem call (nnn : Addr12) : Statement (.call nnn) := by
  refine ⟨by simp [Instr.row, opcodeTable, opcodeRows0to8, opcodeRows9toF], matchesWord_of_bits _ _ ?_⟩
  intro i hi
  simp only [Instr.encode, Instr.row, Word.bit_ofNnn]
  interval_cases i <;> simp

theorem seImm (x : Digit) (nn : Byte) : Statement (.seImm x nn) := by
  refine ⟨by simp [Instr.row, opcodeTable, opcodeRows0to8, opcodeRows9toF], matchesWord_of_bits _ _ ?_⟩
  intro i hi
  simp only [Instr.encode, Instr.row, Word.bit_ofXnn]
  interval_cases i <;> simp

theorem sneImm (x : Digit) (nn : Byte) : Statement (.sneImm x nn) := by
  refine ⟨by simp [Instr.row, opcodeTable, opcodeRows0to8, opcodeRows9toF], matchesWord_of_bits _ _ ?_⟩
  intro i hi
  simp only [Instr.encode, Instr.row, Word.bit_ofXnn]
  interval_cases i <;> simp

theorem seReg (x y : Digit) : Statement (.seReg x y) := by
  refine ⟨by simp [Instr.row, opcodeTable, opcodeRows0to8, opcodeRows9toF], matchesWord_of_bits _ _ ?_⟩
  intro i hi
  simp only [Instr.encode, Instr.row, Word.bit_ofXyn]
  interval_cases i <;> simp

theorem ldImm (x : Digit) (nn : Byte) : Statement (.ldImm x nn) := by
  refine ⟨by simp [Instr.row, opcodeTable, opcodeRows0to8, opcodeRows9toF], matchesWord_of_bits _ _ ?_⟩
  intro i hi
  simp only [Instr.encode, Instr.row, Word.bit_ofXnn]
  interval_cases i <;> simp

theorem addImm (x : Digit) (nn : Byte) : Statement (.addImm x nn) := by
  refine ⟨by simp [Instr.row, opcodeTable, opcodeRows0to8, opcodeRows9toF], matchesWord_of_bits _ _ ?_⟩
  intro i hi
  simp only [Instr.encode, Instr.row, Word.bit_ofXnn]
  interval_cases i <;> simp

theorem ldReg (x y : Digit) : Statement (.ldReg x y) := by
  refine ⟨by simp [Instr.row, opcodeTable, opcodeRows0to8, opcodeRows9toF], matchesWord_of_bits _ _ ?_⟩
  intro i hi
  simp only [Instr.encode, Instr.row, Word.bit_ofXyn]
  interval_cases i <;> simp

theorem orReg (x y : Digit) : Statement (.orReg x y) := by
  refine ⟨by simp [Instr.row, opcodeTable, opcodeRows0to8, opcodeRows9toF], matchesWord_of_bits _ _ ?_⟩
  intro i hi
  simp only [Instr.encode, Instr.row, Word.bit_ofXyn]
  interval_cases i <;> simp

theorem andReg (x y : Digit) : Statement (.andReg x y) := by
  refine ⟨by simp [Instr.row, opcodeTable, opcodeRows0to8, opcodeRows9toF], matchesWord_of_bits _ _ ?_⟩
  intro i hi
  simp only [Instr.encode, Instr.row, Word.bit_ofXyn]
  interval_cases i <;> simp

theorem xorReg (x y : Digit) : Statement (.xorReg x y) := by
  refine ⟨by simp [Instr.row, opcodeTable, opcodeRows0to8, opcodeRows9toF], matchesWord_of_bits _ _ ?_⟩
  intro i hi
  simp only [Instr.encode, Instr.row, Word.bit_ofXyn]
  interval_cases i <;> simp

theorem addReg (x y : Digit) : Statement (.addReg x y) := by
  refine ⟨by simp [Instr.row, opcodeTable, opcodeRows0to8, opcodeRows9toF], matchesWord_of_bits _ _ ?_⟩
  intro i hi
  simp only [Instr.encode, Instr.row, Word.bit_ofXyn]
  interval_cases i <;> simp

theorem subReg (x y : Digit) : Statement (.subReg x y) := by
  refine ⟨by simp [Instr.row, opcodeTable, opcodeRows0to8, opcodeRows9toF], matchesWord_of_bits _ _ ?_⟩
  intro i hi
  simp only [Instr.encode, Instr.row, Word.bit_ofXyn]
  interval_cases i <;> simp

theorem shr (x y : Digit) : Statement (.shr x y) := by
  refine ⟨by simp [Instr.row, opcodeTable, opcodeRows0to8, opcodeRows9toF], matchesWord_of_bits _ _ ?_⟩
  intro i hi
  simp only [Instr.encode, Instr.row, Word.bit_ofXyn]
  interval_cases i <;> simp

theorem subn (x y : Digit) : Statement (.subn x y) := by
  refine ⟨by simp [Instr.row, opcodeTable, opcodeRows0to8, opcodeRows9toF], matchesWord_of_bits _ _ ?_⟩
  intro i hi
  simp only [Instr.encode, Instr.row, Word.bit_ofXyn]
  interval_cases i <;> simp

theorem shl (x y : Digit) : Statement (.shl x y) := by
  refine ⟨by simp [Instr.row, opcodeTable, opcodeRows0to8, opcodeRows9toF], matchesWord_of_bits _ _ ?_⟩
  intro i hi
  simp only [Instr.encode, Instr.row, Word.bit_ofXyn]
  interval_cases i <;> simp

theorem sneReg (x y : Digit) : Statement (.sneReg x y) := by
  refine ⟨by simp [Instr.row, opcodeTable, opcodeRows0to8, opcodeRows9toF], matchesWord_of_bits _ _ ?_⟩
  intro i hi
  simp only [Instr.encode, Instr.row, Word.bit_ofXyn]
  interval_cases i <;> simp

theorem ldI (nnn : Addr12) : Statement (.ldI nnn) := by
  refine ⟨by simp [Instr.row, opcodeTable, opcodeRows0to8, opcodeRows9toF], matchesWord_of_bits _ _ ?_⟩
  intro i hi
  simp only [Instr.encode, Instr.row, Word.bit_ofNnn]
  interval_cases i <;> simp

theorem jpV0 (nnn : Addr12) : Statement (.jpV0 nnn) := by
  refine ⟨by simp [Instr.row, opcodeTable, opcodeRows0to8, opcodeRows9toF], matchesWord_of_bits _ _ ?_⟩
  intro i hi
  simp only [Instr.encode, Instr.row, Word.bit_ofNnn]
  interval_cases i <;> simp

theorem rnd (x : Digit) (nn : Byte) : Statement (.rnd x nn) := by
  refine ⟨by simp [Instr.row, opcodeTable, opcodeRows0to8, opcodeRows9toF], matchesWord_of_bits _ _ ?_⟩
  intro i hi
  simp only [Instr.encode, Instr.row, Word.bit_ofXnn]
  interval_cases i <;> simp

theorem drw (x y n : Digit) : Statement (.drw x y n) := by
  refine ⟨by simp [Instr.row, opcodeTable, opcodeRows0to8, opcodeRows9toF], matchesWord_of_bits _ _ ?_⟩
  intro i hi
  simp only [Instr.encode, Instr.row, Word.bit_ofXyn]
  interval_cases i <;> simp

theorem skp (x : Digit) : Statement (.skp x) := by
  refine ⟨by simp [Instr.row, opcodeTable, opcodeRows0to8, opcodeRows9toF], matchesWord_of_bits _ _ ?_⟩
  intro i hi
  simp only [Instr.encode, Instr.row, Word.bit_ofXnn]
  interval_cases i <;> simp

theorem sknp (x : Digit) : Statement (.sknp x) := by
  refine ⟨by simp [Instr.row, opcodeTable, opcodeRows0to8, opcodeRows9toF], matchesWord_of_bits _ _ ?_⟩
  intro i hi
  simp only [Instr.encode, Instr.row, Word.bit_ofXnn]
  interval_cases i <;> simp

theorem ldVxDT (x : Digit) : Statement (.ldVxDT x) := by
  refine ⟨by simp [Instr.row, opcodeTable, opcodeRows0to8, opcodeRows9toF], matchesWord_of_bits _ _ ?_⟩
  intro i hi
  simp only [Instr.encode, Instr.row, Word.bit_ofXnn]
  interval_cases i <;> simp

theorem ldVxK (x : Digit) : Statement (.ldVxK x) := by
  refine ⟨by simp [Instr.row, opcodeTable, opcodeRows0to8, opcodeRows9toF], matchesWord_of_bits _ _ ?_⟩
  intro i hi
  simp only [Instr.encode, Instr.row, Word.bit_ofXnn]
  interval_cases i <;> simp

theorem ldDTVx (x : Digit) : Statement (.ldDTVx x) := by
  refine ⟨by simp [Instr.row, opcodeTable, opcodeRows0to8, opcodeRows9toF], matchesWord_of_bits _ _ ?_⟩
  intro i hi
  simp only [Instr.encode, Instr.row, Word.bit_ofXnn]
  interval_cases i <;> simp

theorem ldSTVx (x : Digit) : Statement (.ldSTVx x) := by
  refine ⟨by simp [Instr.row, opcodeTable, opcodeRows0to8, opcodeRows9toF], matchesWord_of_bits _ _ ?_⟩
  intro i hi
  simp only [Instr.encode, Instr.row, Word.bit_ofXnn]
  interval_cases i <;> simp

theorem addI (x : Digit) : Statement (.addI x) := by
  refine ⟨by simp [Instr.row, opcodeTable, opcodeRows0to8, opcodeRows9toF], matchesWord_of_bits _ _ ?_⟩
  intro i hi
  simp only [Instr.encode, Instr.row, Word.bit_ofXnn]
  interval_cases i <;> simp

theorem ldF (x : Digit) : Statement (.ldF x) := by
  refine ⟨by simp [Instr.row, opcodeTable, opcodeRows0to8, opcodeRows9toF], matchesWord_of_bits _ _ ?_⟩
  intro i hi
  simp only [Instr.encode, Instr.row, Word.bit_ofXnn]
  interval_cases i <;> simp

theorem ldB (x : Digit) : Statement (.ldB x) := by
  refine ⟨by simp [Instr.row, opcodeTable, opcodeRows0to8, opcodeRows9toF], matchesWord_of_bits _ _ ?_⟩
  intro i hi
  simp only [Instr.encode, Instr.row, Word.bit_ofXnn]
  interval_cases i <;> simp

theorem stRegs (x : Digit) : Statement (.stRegs x) := by
  refine ⟨by simp [Instr.row, opcodeTable, opcodeRows0to8, opcodeRows9toF], matchesWord_of_bits _ _ ?_⟩
  intro i hi
  simp only [Instr.encode, Instr.row, Word.bit_ofXnn]
  interval_cases i <;> simp

theorem ldRegs (x : Digit) : Statement (.ldRegs x) := by
  refine ⟨by simp [Instr.row, opcodeTable, opcodeRows0to8, opcodeRows9toF], matchesWord_of_bits _ _ ?_⟩
  intro i hi
  simp only [Instr.encode, Instr.row, Word.bit_ofXnn]
  interval_cases i <;> simp

end Sys2Proof.Laws.OpcodeRows
end

