-- ==== Sys2Proof/Laws/Step.lean ====
section
/-! SUPPORT. What one step can do, said once: whose turn it is, and what the engine's turn is in each run state. -/

namespace Sys2Proof.Machine

/-- The engine's turn is the engine's step. -/
theorem step_of_engineTurn {s s' : State} (h : s.engineTurn s') : step s = engineStep s' := by
  rcases h with ⟨h, rfl⟩ | ⟨rest, h, rfl⟩ <;> simp [step, State.nextEvent, h, takeEvent]

/-- The turn of an event is its step. -/
theorem step_of_eventTurn {s s' : State} {e : Event} (h : s.eventTurn e s') :
    step s = takeEvent e s' := by
  obtain ⟨rest, h, rfl⟩ := h
  simp [step, State.nextEvent, h]

/-- A run of one step more, where that step answers a next state. -/
theorem core_run_succ {s t : State} (n : Nat) (h : step s = .next t) :
    Host.Core.run core (n + 1) s = Host.Core.run core n t := by
  have h' : core.step s = .next t := h
  simp only [Host.Core.run, h']

/-- The state a step starts from differs from s in the schedule alone. -/
theorem State.nextEvent_state (s : State) :
    s.nextEvent.2 = { s with sched := s.nextEvent.2.sched } := by
  unfold State.nextEvent
  split <;> rfl

/-- A turn the schedule names, as a turn of `nextEvent`. -/
theorem State.engineTurn_nextEvent (s : State) (h : s.nextEvent.1 = .engine) :
    s.engineTurn s.nextEvent.2 := by
  unfold State.nextEvent at h ⊢
  unfold State.engineTurn
  split at h
  · next hs => exact .inl ⟨hs, rfl⟩
  · next e rest hs => exact .inr ⟨rest, by simpa [hs] using h, rfl⟩

/-- Every event but the engine's turn answers a next state. -/
theorem takeEvent_of_ne_engine {e : Event} (he : e ≠ .engine) (s : State) :
    ∃ t, takeEvent e s = .next t := by
  cases e with
  | engine => exact absurd rfl he
  | tick => exact ⟨_, rfl⟩
  | start => exact ⟨_, rfl⟩
  | stop => exact ⟨_, rfl⟩
  | load rom => exact ⟨_, rfl⟩
  | keyWrite mask values => exact ⟨_, rfl⟩

/-- The engine's turn, by run state. -/
theorem engineStep_ready {s : State} (h : s.run = .ready) : engineStep s = .next s := by
  simp [engineStep, h]

theorem engineStep_running {s : State} (h : s.run = .running) :
    engineStep s = instructionStep s := by
  simp [engineStep, h]

theorem engineStep_awaiting {s : State} {x : Digit} (h : s.run = .awaitingKey x) :
    engineStep s = .next (s.awaitStep x) := by
  simp [engineStep, h]

theorem engineStep_halted {s : State} {why : HaltReason} (h : s.run = .halted why) :
    engineStep s = .fault (.runEnded why) := by
  simp [engineStep, h]

/-- The fetch, by pc. -/
theorem State.fetch_of_le {s : State} (h : s.pc.toNat + 1 ≤ 0xFFF) :
    s.fetch = some (Word.ofBytes (s.readByte s.pc.toNat) (s.readByte (s.pc.toNat + 1))) :=
  if_pos ((inRange_iff _).2 h)

theorem State.fetch_of_gt {s : State} (h : s.pc.toNat + 1 > 0xFFF) : s.fetch = none :=
  if_neg (by rw [inRange_iff]; omega)

/-- The fetch depends on pc and memory alone. -/
theorem State.fetch_congr {s t : State} (hp : t.pc = s.pc) (hm : t.mem = s.mem) :
    t.fetch = s.fetch := by
  simp [State.fetch, State.readByte, hp, hm]

/-- The instruction step, by what is fetched and decoded. -/
theorem instructionStep_cases (s : State) :
    (s.fetch = none ∧ instructionStep s = .next (s.raise .fetchOutOfRange none)) ∨
    (∃ w i, s.fetch = some w ∧ decode w = .instr i ∧ instructionStep s = exec i s) ∨
    (∃ w v, s.fetch = some w ∧ decode w = .unknown v ∧
      instructionStep s = .next (s.unknownOpcode v)) := by
  unfold instructionStep
  cases hf : s.fetch with
  | none => exact .inl ⟨rfl, rfl⟩
  | some w =>
    cases hd : decode w with
    | instr i => exact .inr (.inl ⟨w, i, rfl, hd, by simp [hd]⟩)
    | unknown v => exact .inr (.inr ⟨w, v, rfl, hd, by simp [hd]⟩)

/-- The latched keys are those whose edge is set. -/
theorem State.mem_edgeKeys (s : State) (k : Digit) :
    k ∈ s.edgeKeys ↔ s.keyEdge[k.toNat]'k.isLt = true := by
  unfold State.edgeKeys
  rw [List.mem_filter]
  refine ⟨fun h => h.2, fun h => ⟨List.mem_map.2 ⟨k.toNat, ?_, ?_⟩, h⟩⟩
  · exact List.mem_range.2 k.isLt
  · simp

/-- The await-completion step: nothing with no edge latched, else a completion with a latched key. -/
theorem State.awaitStep_cases (s : State) (x : Digit) :
    (s.edgeKeys = [] ∧ s.awaitStep x = s) ∨
    ∃ k ∈ s.edgeKeys, s.awaitStep x = s.completeWait x k := by
  unfold State.awaitStep
  split
  · next h => exact .inl ⟨h, rfl⟩
  · next k ks h => exact .inr ⟨_, by rw [h]; exact List.getElem_mem _, rfl⟩

end Sys2Proof.Machine
end

