-- ==== Sys2Proof/Tests/Slice0.lean ====
section
/-! SUPPORT. The model's own tests: the smoke of `Word.wellFormed`, every constructor's decoding from a word written
out from the spec's encoding, single steps with the results of spec/95_test_vectors.md, and for every statement with
hypotheses a witness that meets them. -/

namespace Sys2Proof.Tests

open Sys2Proof Sys2Proof.Machine

/-! ### Small states -/

/-- The reset state, running. -/
def running : State := { State.reset with run := .running }

/-- The state a result answers, if it answers one. -/
def after (r : Result) : Option State :=
  match r with
  | .next s => some s
  | .fault _ => none
  | .refused _ => none

/-- What f reads in the state after one step of s with the word w at its pc. -/
def run {α : Type} (s : State) (w : Nat) (f : State → α) : Option α :=
  (after (step (s.withFetchWord 16 w))).map f

/-- The fault record after one step. -/
def faults (s : State) (w : Nat) : Option (Option FaultRecord × Word) :=
  run s w fun t => (t.faultRecord, t.pc)

/-- The pixels that are on in the columns given, as (column, row). -/
def lit (t : State) (cols rows : List Nat) : List (Nat × Nat) :=
  (rows.flatMap fun r => cols.map fun c => (c, r)).filter fun p =>
    Display.get t.disp (Fin.ofNat 32 p.2) (Fin.ofNat 64 p.1)

/-! ### Smoke of the well-formedness check: an ill-formed word of each family is refused (30_encoding.md R87) -/

theorem test_wellFormed_refuses_family_0 :
    Word.wellFormed 0x0123 = false ∧ decode 0x0123 = .unknown 0x0123 := by decide

theorem test_wellFormed_refuses_family_5 :
    Word.wellFormed 0x5121 = false ∧ decode 0x5121 = .unknown 0x5121 := by decide

theorem test_wellFormed_refuses_family_8 :
    Word.wellFormed 0x8128 = false ∧ decode 0x8128 = .unknown 0x8128 := by decide

theorem test_wellFormed_refuses_family_9 :
    Word.wellFormed 0x912F = false ∧ decode 0x912F = .unknown 0x912F := by decide

theorem test_wellFormed_refuses_family_E :
    Word.wellFormed 0xE19F = false ∧ decode 0xE19F = .unknown 0xE19F := by decide

theorem test_wellFormed_refuses_family_F :
    Word.wellFormed 0xF100 = false ∧ decode 0xF100 = .unknown 0xF100 := by decide

theorem test_wellFormed_accepts :
    Word.wellFormed 0x8AB6 = true ∧ Word.wellFormed 0x00EE = true := by decide

theorem test_decodeBytes_truncated :
    decodeBytes [0x12] = .truncated ∧ decodeBytes [0x12, 0x34, 0x56] = .word (.instr (.jp 0x234)) [0x56] := by decide

theorem test_opcode_rows_count :
    opcodeTable.length = 34 := by decide

/-! ### Every constructor's decoding, from a word written out bit by bit (30_encoding.md R82, R85) -/

theorem test_decode_cls :
    decode 0b0000000011100000 = .instr (.cls) ∧ Instr.encode (.cls) = 0b0000000011100000 := by decide

theorem test_decode_ret :
    decode 0b0000000011101110 = .instr (.ret) ∧ Instr.encode (.ret) = 0b0000000011101110 := by decide

theorem test_decode_jp :
    decode 0b0001101010111100 = .instr (.jp 0xABC) ∧ Instr.encode (.jp 0xABC) = 0b0001101010111100 := by decide

theorem test_decode_call :
    decode 0b0010000100100011 = .instr (.call 0x123) ∧ Instr.encode (.call 0x123) = 0b0010000100100011 := by decide

theorem test_decode_seImm :
    decode 0b0011010110100110 = .instr (.seImm 0x5 0xA6) ∧ Instr.encode (.seImm 0x5 0xA6) = 0b0011010110100110 := by decide

theorem test_decode_sneImm :
    decode 0b0100011000011111 = .instr (.sneImm 0x6 0x1F) ∧ Instr.encode (.sneImm 0x6 0x1F) = 0b0100011000011111 := by decide

theorem test_decode_seReg :
    decode 0b0101100111100000 = .instr (.seReg 0x9 0xE) ∧ Instr.encode (.seReg 0x9 0xE) = 0b0101100111100000 := by decide

theorem test_decode_ldImm :
    decode 0b0110101000101111 = .instr (.ldImm 0xA 0x2F) ∧ Instr.encode (.ldImm 0xA 0x2F) = 0b0110101000101111 := by decide

theorem test_decode_addImm :
    decode 0b0111000100100000 = .instr (.addImm 0x1 0x20) ∧ Instr.encode (.addImm 0x1 0x20) = 0b0111000100100000 := by decide

theorem test_decode_ldReg :
    decode 0b1000001101110000 = .instr (.ldReg 0x3 0x7) ∧ Instr.encode (.ldReg 0x3 0x7) = 0b1000001101110000 := by decide

theorem test_decode_orReg :
    decode 0b1000001101110001 = .instr (.orReg 0x3 0x7) ∧ Instr.encode (.orReg 0x3 0x7) = 0b1000001101110001 := by decide

theorem test_decode_andReg :
    decode 0b1000001101110010 = .instr (.andReg 0x3 0x7) ∧ Instr.encode (.andReg 0x3 0x7) = 0b1000001101110010 := by decide

theorem test_decode_xorReg :
    decode 0b1000001101110011 = .instr (.xorReg 0x3 0x7) ∧ Instr.encode (.xorReg 0x3 0x7) = 0b1000001101110011 := by decide

theorem test_decode_addReg :
    decode 0b1000001101110100 = .instr (.addReg 0x3 0x7) ∧ Instr.encode (.addReg 0x3 0x7) = 0b1000001101110100 := by decide

theorem test_decode_subReg :
    decode 0b1000001101110101 = .instr (.subReg 0x3 0x7) ∧ Instr.encode (.subReg 0x3 0x7) = 0b1000001101110101 := by decide

theorem test_decode_shr :
    decode 0b1000101010110110 = .instr (.shr 0xA 0xB) ∧ Instr.encode (.shr 0xA 0xB) = 0b1000101010110110 := by decide

theorem test_decode_subn :
    decode 0b1000001101110111 = .instr (.subn 0x3 0x7) ∧ Instr.encode (.subn 0x3 0x7) = 0b1000001101110111 := by decide

theorem test_decode_shl :
    decode 0b1000101010111110 = .instr (.shl 0xA 0xB) ∧ Instr.encode (.shl 0xA 0xB) = 0b1000101010111110 := by decide

theorem test_decode_sneReg :
    decode 0b1001110100100000 = .instr (.sneReg 0xD 0x2) ∧ Instr.encode (.sneReg 0xD 0x2) = 0b1001110100100000 := by decide

theorem test_decode_ldI :
    decode 0b1010001011110000 = .instr (.ldI 0x2F0) ∧ Instr.encode (.ldI 0x2F0) = 0b1010001011110000 := by decide

theorem test_decode_jpV0 :
    decode 0b1011010100000001 = .instr (.jpV0 0x501) ∧ Instr.encode (.jpV0 0x501) = 0b1011010100000001 := by decide

theorem test_decode_rnd :
    decode 0b1100010001011010 = .instr (.rnd 0x4 0x5A) ∧ Instr.encode (.rnd 0x4 0x5A) = 0b1100010001011010 := by decide

theorem test_decode_drw :
    decode 0b1101000100101111 = .instr (.drw 0x1 0x2 0xF) ∧ Instr.encode (.drw 0x1 0x2 0xF) = 0b1101000100101111 := by decide

theorem test_decode_skp :
    decode 0b1110110010011110 = .instr (.skp 0xC) ∧ Instr.encode (.skp 0xC) = 0b1110110010011110 := by decide

theorem test_decode_sknp :
    decode 0b1110110010100001 = .instr (.sknp 0xC) ∧ Instr.encode (.sknp 0xC) = 0b1110110010100001 := by decide

theorem test_decode_ldVxDT :
    decode 0b1111011000000111 = .instr (.ldVxDT 0x6) ∧ Instr.encode (.ldVxDT 0x6) = 0b1111011000000111 := by decide

theorem test_decode_ldVxK :
    decode 0b1111011000001010 = .instr (.ldVxK 0x6) ∧ Instr.encode (.ldVxK 0x6) = 0b1111011000001010 := by decide

theorem test_decode_ldDTVx :
    decode 0b1111011000010101 = .instr (.ldDTVx 0x6) ∧ Instr.encode (.ldDTVx 0x6) = 0b1111011000010101 := by decide

theorem test_decode_ldSTVx :
    decode 0b1111011000011000 = .instr (.ldSTVx 0x6) ∧ Instr.encode (.ldSTVx 0x6) = 0b1111011000011000 := by decide

theorem test_decode_addI :
    decode 0b1111011000011110 = .instr (.addI 0x6) ∧ Instr.encode (.addI 0x6) = 0b1111011000011110 := by decide

theorem test_decode_ldF :
    decode 0b1111011000101001 = .instr (.ldF 0x6) ∧ Instr.encode (.ldF 0x6) = 0b1111011000101001 := by decide

theorem test_decode_ldB :
    decode 0b1111011000110011 = .instr (.ldB 0x6) ∧ Instr.encode (.ldB 0x6) = 0b1111011000110011 := by decide

theorem test_decode_stRegs :
    decode 0b1111011001010101 = .instr (.stRegs 0x6) ∧ Instr.encode (.stRegs 0x6) = 0b1111011001010101 := by decide

theorem test_decode_ldRegs :
    decode 0b1111011001100101 = .instr (.ldRegs 0x6) ∧ Instr.encode (.ldRegs 0x6) = 0b1111011001100101 := by decide

theorem test_decodeTableWord :
    decodeTableWord 16 0x8124 = some (.addReg 0x1 0x2) ∧ decodeTableWord 16 0x0000 = none := by decide

/-! ### One step, with the results of spec/95_test_vectors.md (the vector is named) -/

/-- D1. -/
theorem test_cls :
    run { (running.setV 0xF 0x07) with disp := Vector.replicate 32 (Vector.replicate 64 true) } 0x00E0 (fun t => (lit t [0, 1, 63] [0, 31], t.getV 0xF, t.pc)) = some ([], 0x07, 0x202) := by decide

/-- F6. -/
theorem test_ret_pops :
    run { running with sp := 2, stack := running.stack.set 1 0x456 } 0x00EE (fun t => (t.sp.val, t.pc, t.stack[1])) = some (1, 0x456, 0x456) := by decide

/-- F7. -/
theorem test_ret_underflow :
    faults running 0x00EE = some (some ⟨.stackUnderflow, 0x200, some 0x00EE⟩, 0x200) := by decide

/-- F2. -/
theorem test_jp :
    run running 0x1FFF (fun t => (t.pc)) = some (0xFFF) := by decide

/-- F8: the return address 0x1000. -/
theorem test_call_at_the_top :
    run { running with pc := 0xFFE } 0x2F00 (fun t => (t.stack[0], t.sp.val, t.pc)) = some (0x1000, 1, 0xF00) := by decide

/-- F5. -/
theorem test_call_overflow :
    faults { running with sp := 16 } 0x2300 = some (some ⟨.stackOverflow, 0x200, some 0x2300⟩, 0x200) := by decide

/-- F13. -/
theorem test_seImm_skips :
    run (running.setV 0xF 0x01) 0x3F01 (fun t => (t.pc)) = some (0x204) := by decide

/-- F10. -/
theorem test_seImm_falls :
    run (running.setV 0x3 0x11) 0x3310 (fun t => (t.pc)) = some (0x202) := by decide

/-- F11. -/
theorem test_sneImm_falls :
    run (running.setV 0x3 0x10) 0x4310 (fun t => (t.pc)) = some (0x202) := by decide

/-- F12. -/
theorem test_sneImm_skips :
    run running 0x4310 (fun t => (t.pc)) = some (0x204) := by decide

/-- F14. -/
theorem test_seReg_skips :
    run ((running.setV 0x1 7).setV 0x2 7) 0x5120 (fun t => (t.pc)) = some (0x204) := by decide

/-- F15. -/
theorem test_seReg_falls :
    run ((running.setV 0x1 7).setV 0x2 8) 0x5120 (fun t => (t.pc)) = some (0x202) := by decide

/-- F17. -/
theorem test_sneReg_skips :
    run ((running.setV 0x1 7).setV 0x2 8) 0x9120 (fun t => (t.pc)) = some (0x204) := by decide

/-- F18. -/
theorem test_sneReg_same :
    run (running.setV 0x1 7) 0x9110 (fun t => (t.pc)) = some (0x202) := by decide

/-- F21. -/
theorem test_jpV0_no_wrap :
    run (running.setV 0x0 0xFF) 0xBFFF (fun t => (t.pc)) = some (0x10FE) := by decide

/-- F22. -/
theorem test_jpV0_uses_V0 :
    run ((running.setV 0x0 0x02).setV 0x5 0x80) 0xB500 (fun t => (t.pc)) = some (0x502) := by decide

/-- E2, at the top of memory. -/
theorem test_ldImm :
    run { running with pc := 0xFFE } 0x6A07 (fun t => (t.getV 0xA, t.pc)) = some (0x07, 0x1000) := by decide

/-- E5: no alignment check. -/
theorem test_ldImm_odd_pc :
    run { running with pc := 0x201 } 0x602A (fun t => (t.getV 0x0, t.pc)) = some (0x2A, 0x203) := by decide

/-- A3. -/
theorem test_addImm_no_flag :
    run (running.setV 0x1 0xFF) 0x7101 (fun t => (t.getV 0x1, t.getV 0xF, t.pc)) = some (0, 0, 0x202) := by decide

/-- A4. -/
theorem test_addImm_vf :
    run (running.setV 0xF 0x10) 0x7FFF (fun t => (t.getV 0xF)) = some (0x0F) := by decide

/-- A5. -/
theorem test_ldReg :
    run (running.setV 0x2 0x33) 0x8120 (fun t => (t.getV 0x1, t.getV 0x2)) = some (0x33, 0x33) := by decide

/-- A6. -/
theorem test_orReg :
    run (((running.setV 0x1 0x0F).setV 0x2 0xF0).setV 0xF 0x07) 0x8121 (fun t => (t.getV 0x1, t.getV 0xF)) = some (0xFF, 0x07) := by decide

/-- A7. -/
theorem test_orReg_vf :
    run ((running.setV 0x0 0x01).setV 0xF 0x10) 0x8F01 (fun t => (t.getV 0xF)) = some (0x11) := by decide

/-- A8. -/
theorem test_andReg :
    run ((running.setV 0x1 0x3C).setV 0x2 0x0F) 0x8122 (fun t => (t.getV 0x1)) = some (0x0C) := by decide

/-- A9. -/
theorem test_xorReg :
    run ((running.setV 0x1 0x3C).setV 0x2 0x0F) 0x8123 (fun t => (t.getV 0x1)) = some (0x33) := by decide

/-- A14. -/
theorem test_addReg_flag_last :
    run ((running.setV 0xF 0xFF).setV 0x1 0x02) 0x8F14 (fun t => (t.getV 0xF, t.getV 0x1)) = some (1, 2) := by decide

/-- A15. -/
theorem test_addReg_vf_operand :
    run ((running.setV 0x1 0x10).setV 0xF 0xF0) 0x81F4 (fun t => (t.getV 0x1, t.getV 0xF)) = some (0, 1) := by decide

/-- A17. -/
theorem test_subReg_wraps :
    run ((running.setV 0x1 0x00).setV 0x2 0x01) 0x8125 (fun t => (t.getV 0x1, t.getV 0xF)) = some (0xFF, 0) := by decide

/-- A19. -/
theorem test_subReg_vf_operand :
    run ((running.setV 0x1 0x03).setV 0xF 0x03) 0x81F5 (fun t => (t.getV 0x1, t.getV 0xF)) = some (0, 1) := by decide

/-- A22. -/
theorem test_shr_ignores_y :
    run ((running.setV 0x1 0x04).setV 0x2 0xFF) 0x8126 (fun t => (t.getV 0x1, t.getV 0xF)) = some (0x02, 0) := by decide

/-- A23. -/
theorem test_shr_flag_last :
    run (running.setV 0xF 0x03) 0x8F06 (fun t => (t.getV 0xF)) = some (1) := by decide

/-- A24. -/
theorem test_subn :
    run ((running.setV 0x1 10).setV 0x2 5) 0x8127 (fun t => (t.getV 0x1, t.getV 0xF)) = some (0xFB, 0) := by decide

/-- A26. -/
theorem test_subn_flag_last :
    run ((running.setV 0xF 3).setV 0x2 3) 0x8F27 (fun t => (t.getV 0xF)) = some (1) := by decide

/-- A27. -/
theorem test_shl :
    run (running.setV 0x1 0x81) 0x810E (fun t => (t.getV 0x1, t.getV 0xF)) = some (0x02, 1) := by decide

/-- A30. -/
theorem test_shl_flag_last :
    run (running.setV 0xF 0x40) 0x8F0E (fun t => (t.getV 0xF)) = some (0) := by decide

/-- A33: a mask of 0 gives 0 whatever the draw is. -/
theorem test_rnd_mask_zero (r : Byte) :
    (0x00 &&& r) = 0 ∧ run running 0xC100 (fun t => (t.pc, t.draws)) = some (0x202, 1) :=
  ⟨BitVec.zero_and, by decide⟩

/-- M1. -/
theorem test_ldI :
    run running 0xA2F0 (fun t => (t.I, t.pc)) = some (0x2F0, 0x202) := by decide

/-- M4. -/
theorem test_addI_default :
    run { (running.setV 0x1 0x02) with I := 0xFFFF } 0xF11E (fun t => (t.I, t.getV 0xF)) = some (0x0001, 0) := by decide

/-- M3 with FX1E_WRAP = 4096. -/
theorem test_addI_4096 :
    run { (running.setV 0x1 0x01) with I := 0xFFF, cfg := { Config.default with fx1eWrap := .mod4096 } } 0xF11E (fun t => (t.I)) = some (0x000) := by decide

/-- M6. -/
theorem test_ldF_low_nibble :
    run (running.setV 0x4 0x1A) 0xF429 (fun t => (t.I)) = some (0x082) := by decide

/-- M7. -/
theorem test_ldF_last :
    run (running.setV 0x4 0x0F) 0xF429 (fun t => (t.I)) = some (0x09B) := by decide

/-- M8. -/
theorem test_ldB :
    run { (running.setV 0x3 0x9C) with I := 0x300 } 0xF333 (fun t => ([t.readByte 0x300, t.readByte 0x301, t.readByte 0x302], t.I)) = some ([1, 5, 6], 0x300) := by decide

/-- M12. -/
theorem test_ldB_out_of_range :
    faults { running with I := 0xFFE } 0xF333 = some (some ⟨.memOutOfRange 0x1000, 0x200, some 0xF333⟩, 0x200) := by decide

/-- M14. -/
theorem test_stRegs_increments :
    run { (((running.setV 0x0 1).setV 0x1 2).setV 0x2 3) with I := 0x300, cfg := { Config.default with loadStoreIncrementsI := true } } 0xF255 (fun t => ([t.readByte 0x300, t.readByte 0x301, t.readByte 0x302, t.readByte 0x303], t.I)) = some ([1, 2, 3, 0], 0x303) := by decide

/-- M17. -/
theorem test_stRegs_out_of_range :
    faults { running with I := 0xFF1 } 0xFF55 = some (some ⟨.memOutOfRange 0x1000, 0x200, some 0xFF55⟩, 0x200) := by decide

/-- M20. -/
theorem test_ldRegs_glyph :
    run { (running.setV 0x5 0x77) with I := 0x050 } 0xF465 (fun t => ([t.getV 0x0, t.getV 0x1, t.getV 0x2, t.getV 0x3, t.getV 0x4, t.getV 0x5])) = some ([0xF0, 0x90, 0x90, 0x90, 0xF0, 0x77]) := by decide

/-- M22. -/
theorem test_ldRegs_out_of_range :
    faults { running with I := 0xFFA } 0xF665 = some (some ⟨.memOutOfRange 0x1000, 0x200, some 0xF665⟩, 0x200) := by decide

/-- D4. -/
theorem test_drw_clips :
    run { ((running.setV 0x0 62).setV 0x1 30) with I := 0x050 } 0xD015 (fun t => (lit t [0, 1, 62, 63] [0, 1, 2, 30, 31], t.getV 0xF)) = some ([(62, 30), (63, 30), (62, 31)], 0) := by decide

/-- D5. -/
theorem test_drw_wraps :
    run { ((running.setV 0x0 62).setV 0x1 30) with I := 0x050, cfg := { Config.default with drawEdge := .wrap } } 0xD015 (fun t => (lit t [62, 63, 0, 1, 2] [30, 31, 0, 1, 2, 3], t.getV 0xF)) = some ([(62, 30), (63, 30), (0, 30), (1, 30), (62, 31), (1, 31), (62, 0), (1, 0), (62, 1), (1, 1), (62, 2), (63, 2),
      (0, 2), (1, 2)], 0) := by decide

/-- K1. -/
theorem test_skp :
    run { (running.setV 0x5 3) with keys := running.keys.set 3 true } 0xE59E (fun t => (t.pc)) = some (0x204) := by decide

/-- K5. -/
theorem test_skp_key_index :
    faults (running.setV 0x5 0x13) 0xE59E = some (some ⟨.keyIndexOutOfRange 0x13, 0x200, some 0xE59E⟩, 0x200) := by decide

/-- K3. -/
theorem test_sknp :
    run (running.setV 0x5 3) 0xE5A1 (fun t => (t.pc)) = some (0x204) := by decide

/-- K6, for ExA1. -/
theorem test_sknp_low_nibble :
    run { (running.setV 0x5 0x13) with keys := running.keys.set 3 true, cfg := { Config.default with keyIndexPolicy := .lowNibble } } 0xE5A1 (fun t => (t.pc)) = some (0x202) := by decide

/-- K19. -/
theorem test_ldVxDT_vf :
    run { running with DT := 1 } 0xFF07 (fun t => (t.getV 0xF)) = some (1) := by decide

/-- K7. -/
theorem test_ldVxK_begins :
    run (running.setV 0x3 0x55) 0xF30A (fun t => (t.run, t.pc, t.getV 0x3)) = some (.awaitingKey 0x3, 0x202, 0x55) := by decide

/-- K16. -/
theorem test_ldDTVx :
    run { (running.setV 0x1 60) with ST := 9 } 0xF115 (fun t => (t.DT, t.ST)) = some (60, 9) := by decide

/-- K18. -/
theorem test_ldSTVx :
    run (running.setV 0x2 5) 0xF218 (fun t => (t.ST, t.soundActive, t.DT)) = some (5, true, 0) := by decide

/-! ### The engine, the timers and the host -/

/-- E4. -/
theorem test_fetch_at_the_top :
    (after (step { running with pc := 0xFFF })).map (fun t => (t.faultRecord, t.pc)) =
      some (some ⟨.fetchOutOfRange, 0xFFF, none⟩, 0xFFF) := by decide

/-- E6, T13. -/
theorem test_unknown_halts :
    (after (step running)).map (fun t => (t.faultRecord, t.pc)) =
      some (some ⟨.unknownOpcode, 0x200, some 0x0000⟩, 0x200) := by decide

/-- E7. -/
theorem test_unknown_skips :
    (after (step { running with cfg := { Config.default with unknownPolicy := .skip } })).map
      (fun t => (t.outputs, t.pc, t.run)) = some ([.diagnostic 0x200 0x0000], 0x202, .running) := by decide

/-- E15. -/
theorem test_ready_takes_no_step :
    step State.reset = .next State.reset := rfl

/-- 60_exceptions.md R304. -/
theorem test_halted_takes_no_step :
    step { running with run := .halted .stopped } = .fault (.runEnded .stopped) := rfl

/-- K12: the press stays latched after the release. -/
theorem test_press_is_latched :
    (after (Host.Core.run core 2 { running with run := .awaitingKey 0x3, sched := [.keyWrite 0x0020 0x0020, .keyWrite 0x0020 0x0000] })).map
      (fun t => (t.keys[5], t.edgeKeys, t.run)) = some (false, [0x5], .awaitingKey 0x3) := by decide

/-- K9: the wait completes with the one key whose edge is latched, whatever the draw is. -/
theorem test_wait_completes :
    (after (step { running with run := .awaitingKey 0x3, keyEdge := running.keyEdge.set 7 true })).map
      (fun t => (t.getV 0x3, t.run, t.keyEdge[7])) = some (0x07, .running, false) := by
  have h : State.edgeKeys { running with run := .awaitingKey 0x3, keyEdge := running.keyEdge.set 7 true }
      = [0x7] := by decide
  have hs : State.awaitStep { running with run := .awaitingKey 0x3, keyEdge := running.keyEdge.set 7 true } 0x3
      = State.completeWait { running with run := .awaitingKey 0x3, keyEdge := running.keyEdge.set 7 true } 0x3 0x7 := by
    unfold State.awaitStep
    split
    · next e => rw [h] at e; cases e
    · next k ks e => rw [h] at e; cases e; simp
  have ht : step { running with run := .awaitingKey 0x3, keyEdge := running.keyEdge.set 7 true } = .next
      (State.completeWait { running with run := .awaitingKey 0x3, keyEdge := running.keyEdge.set 7 true } 0x3 0x7) :=
    congrArg Host.Outcome.next hs
  rw [ht]
  decide

/-- K10. -/
theorem test_held_key_is_no_edge :
    (after (step { running with run := .awaitingKey 0x3, keys := running.keys.set 2 true })).map (fun t => t.run) =
      some (.awaitingKey 0x3) := by decide

/-- T1. -/
theorem test_tick_clamps :
    (after (step { running with DT := 2, ST := 0, sched := [.tick] })).map (fun t => (t.DT, t.ST)) = some (1, 0) := by decide

/-- K14. -/
theorem test_tick_in_a_wait :
    (after (step { running with run := .awaitingKey 0x0, DT := 5, sched := [.tick] })).map (fun t => (t.DT, t.run)) =
      some (4, .awaitingKey 0x0) := by decide

/-- T4. -/
theorem test_no_tick_when_ready :
    (after (step { State.reset with DT := 5, sched := [.tick] })).map (fun t => (t.DT, t.run)) = some (5, .ready) := by decide

/-- T5. -/
theorem test_no_tick_when_halted :
    (after (step { running with run := .halted .stopped, DT := 5, sched := [.tick] })).map (fun t => t.DT) = some 5 := by decide

/-- T6, after an earlier load: the last one wins. -/
theorem test_load :
    (after (Host.Core.run core 2 { State.reset with sched := [.load [0x11, 0x22, 0x33], .load [0x00, 0xE0]] })).map
      (fun t => ([t.readByte 0x200, t.readByte 0x201, t.readByte 0x202, t.readByte 0x050], t.outputs)) =
      some ([0x00, 0xE0, 0x00, 0xF0], [.loadResult .ok, .loadResult .ok]) := by decide

/-- T9. -/
theorem test_load_not_ready :
    (after (step { running with sched := [.load [0x00, 0xE0]] })).map (fun t => (t.outputs, t.mem)) =
      some ([.loadResult .notReady], []) := by decide

/-- Boot (70_reset_and_hazards.md R352): load, start, 6005, 1200. -/
theorem test_boot_runs_the_program :
    (after (Host.Core.run core 4 { State.reset with sched := [.load [0x60, 0x05, 0x12, 0x00], .start] })).map
      (fun t => (t.getV 0x0, t.pc, t.run)) = some (0x05, 0x200, .running) := by decide

/-- T14. -/
theorem test_key_write :
    (after (step { running with sched := [.keyWrite 0x0001 0x0001] })).map (fun t => (t.keys[0], t.keys[1], t.edgeKeys)) =
      some (true, false, []) := by decide

/-- S6: the glyph of A by default, and with the source's literal as FONT. -/
theorem test_construct_other_font :
    (State.construct { Config.default with font := Config.standardFont.set 50 0x90 }).readByte 0x082 = 0x90 ∧
      (State.construct Config.default).readByte 0x082 = 0xF0 := by decide

/-- M23: self-modifying code. -/
theorem test_store_then_fetch :
    (after (Host.Core.run core 2 { ((running.setV 0x0 0x61).setV 0x1 0x07) with I := 0x202, mem := Memory.writeBytes [] 0x200 [0xF1, 0x55] })).map
      (fun t => (t.getV 0x1, t.pc)) = some (0x07, 0x204) := by decide

/-- 60_exceptions.md R300. -/
theorem test_codes :
    [FaultCause.fetchOutOfRange, .memOutOfRange 0, .stackOverflow, .stackUnderflow, .unknownOpcode,
      .keyIndexOutOfRange 0].map FaultCause.code = [1, 2, 3, 4, 5, 6] := by decide

/-! ### Witnesses: for every statement with hypotheses, a state and operands that meet them together -/

theorem witness_engineTurn_both_ways :
    running.engineTurn running ∧ State.engineTurn { running with sched := [.engine, .tick] } { running with sched := [.tick] } := ⟨.inl ⟨rfl, rfl⟩, .inr ⟨[.tick], rfl, rfl⟩⟩

theorem witness_StepRunsTheDecodedInstruction :
    ∃ s s' i, State.engineTurn s s' ∧ s.run = .running ∧ s.pc.toNat + 1 ≤ 0xFFF ∧
      decodeBytes [s.readByte s.pc.toNat, s.readByte (s.pc.toNat + 1)] = .word (.instr i) [] := ⟨_, _, .jp 0x234, .inl ⟨show (State.withFetchWord { running with pc := 0xFFE } 16 0x1234).sched = [] from rfl, rfl⟩,
    rfl, by decide, by decide⟩

theorem witness_FetchPastMemoryHalts :
    ∃ s s', State.engineTurn s s' ∧ s.run = .running ∧ s.pc.toNat + 1 > 0xFFF := ⟨{ running with pc := 0xFFF }, _, .inl ⟨rfl, rfl⟩, rfl, by decide⟩

theorem witness_UnknownWordFollowsThePolicy_halt :
    ∃ s s' w, State.engineTurn s s' ∧ s.run = .running ∧ s.pc.toNat + 1 ≤ 0xFFF ∧
      w = Word.ofBytes (s.readByte s.pc.toNat) (s.readByte (s.pc.toNat + 1)) ∧ decode w = .unknown w ∧
      s.cfg.unknownPolicy = .halt := ⟨{ running with cfg := { Config.default with unknownPolicy := .halt } }, _, 0, .inl ⟨rfl, rfl⟩, rfl, by decide, by decide,
    by decide, rfl⟩

theorem witness_UnknownWordFollowsThePolicy_skip :
    ∃ s s' w, State.engineTurn s s' ∧ s.run = .running ∧ s.pc.toNat + 1 ≤ 0xFFF ∧
      w = Word.ofBytes (s.readByte s.pc.toNat) (s.readByte (s.pc.toNat + 1)) ∧ decode w = .unknown w ∧
      s.cfg.unknownPolicy = .skip := ⟨{ running with cfg := { Config.default with unknownPolicy := .skip } }, _, 0, .inl ⟨rfl, rfl⟩, rfl, by decide, by decide,
    by decide, rfl⟩

theorem witness_EngineIdlesWhenNotEnabled :
    (∃ s s', State.engineTurn s s' ∧ s.run = .ready) ∧
      ∃ s s' x, State.engineTurn s s' ∧ s.run = .awaitingKey x ∧ s.keyEdge = noEdges := ⟨⟨State.reset, _, .inl ⟨rfl, rfl⟩, rfl⟩, ⟨{ running with run := .awaitingKey 0x0 }, _, 0x0, .inl ⟨rfl, rfl⟩, rfl, rfl⟩⟩

theorem witness_PlacedWordRunsNext :
    Memory.wf State.reset.mem ∧ Memory.wf [(0xFFF, 0x01)] := by decide

theorem witness_ReadAfterWrite :
    Memory.wf [(0x050, 0x00), (0xFFF, 0x01)] ∧ 0xFFF ≤ 0xFFF ∧ 0x050 ≠ 0xFFF := by decide

theorem witness_MemoryIsDeterminedByItsBytes :
    ∃ m m' : Memory, Memory.wf m ∧ Memory.wf m' ∧ ∀ a ≤ 0xFFF, Memory.read m a = Memory.read m' a := ⟨[(0xFFF, 0x01)], [(0xFFF, 0x01)], by decide, by decide, fun _ _ => rfl⟩

theorem witness_ReturnPopsThePc :
    0 < State.sp { running with sp := 1 } ∧ 0 < State.sp { running with sp := 16 } ∧ running.sp.val = 0 := by decide

theorem witness_CallPushesTheReturnAddress :
    (State.sp { running with sp := 15 }).val < 16 ∧ running.sp.val < 16 ∧ (State.sp { running with sp := 16 }).val = 16 := by decide

theorem witness_JumpSetsThePc :
    (0x200 : Addr12).toNat = running.pc.toNat ∧ (0xFFF : Addr12).toNat = 0xFFF := by decide

theorem witness_JumpWithOffsetAddsV0 :
    0xFFF ≤ (0xF00 : Addr12).toNat + ((running.setV 0x0 0xFF).getV 0).toNat := by decide

theorem witness_SetTimersFromTheRegister :
    running.run = .running ∧ (running.setV 0x2 5).getV 0x2 ≠ 0 ∧ running.getV 0x2 = 0 := by decide

theorem witness_SkipsOnAnImmediate :
    running.getV 0xF = 0x00 ∧ running.getV 0x0 ≠ 0xFF := by decide

theorem witness_SkipsOnARegister :
    running.getV 0x1 = running.getV 0x2 ∧ (running.setV 0x1 7).getV 0x1 ≠ (running.setV 0x1 7).getV 0x2 ∧ (0xF : Digit) ≠ 0 := by decide

theorem witness_FallThroughAdvancesByTwo :
    ∃ i s t, writesPc i = false ∧ faultOf i s = none ∧ exec i s = .next t := ⟨.drw 0x0 0x1 0x1, { running with I := 0xFFF }, _, rfl, by decide, rfl⟩

theorem witness_AddSetsTheCarry :
    (0xE : Digit) ≠ 0xF := by decide

theorem witness_SubtractsSetNoBorrow :
    (0xE : Digit) ≠ 0xF := by decide

theorem witness_ShiftsMoveABitIntoTheFlag :
    (0x0 : Digit) ≠ 0xF := by decide

theorem witness_RegistersChangeOnlyByName :
    (∃ i s t k, exec i s = .next t ∧ t.getV k ≠ s.getV k ∧ k ≠ 0xF) ∧
      ∃ i s t, exec i s = .next t ∧ t.getV 0xF ≠ s.getV 0xF := ⟨⟨.ldImm 0x0 0x01, running, _, 0x0, rfl, by decide, by decide⟩, ⟨.subReg 0x0 0x1, running, _, rfl, by decide⟩⟩

theorem witness_BcdStoresTheDigits :
    ∃ s : State, Memory.wf s.mem ∧ s.I.toNat + 2 ≤ 0xFFF := ⟨{ running with I := 0xFFD }, by decide, by decide⟩

theorem witness_StoreRegistersWritesThem :
    (∃ (s : State) (x : Digit), Memory.wf s.mem ∧ s.I.toNat + x.toNat ≤ 0xFFF ∧ s.cfg.loadStoreIncrementsI = false) ∧
      ∃ (s : State) (x : Digit), Memory.wf s.mem ∧ s.I.toNat + x.toNat ≤ 0xFFF ∧ s.cfg.loadStoreIncrementsI = true := ⟨⟨{ running with I := 0xFF0 }, 0xF, by decide, by decide, rfl⟩,
    ⟨{ running with I := 0xFFF, cfg := { Config.default with loadStoreIncrementsI := true } }, 0x0, by decide, by decide, rfl⟩⟩

theorem witness_LoadRegistersReadsThem :
    (∃ (s : State) (x k : Digit), s.I.toNat + x.toNat ≤ 0xFFF ∧ x.toNat < k.toNat ∧ s.cfg.loadStoreIncrementsI = false) ∧
      ∃ (s : State) (x k : Digit), s.I.toNat + x.toNat ≤ 0xFFF ∧ k.toNat ≤ x.toNat ∧ s.cfg.loadStoreIncrementsI = true := ⟨⟨{ running with I := 0xFFF }, 0x0, 0x1, by decide, by decide, rfl⟩,
    ⟨{ running with I := 0xFF0, cfg := { Config.default with loadStoreIncrementsI := true } }, 0xF, 0xF, by decide, by decide, rfl⟩⟩

theorem witness_LoadRestoresWhatStoreSaved :
    ∃ (s t u v : State) (x k : Digit), Memory.wf s.mem ∧ s.I.toNat + x.toNat ≤ 0xFFF ∧ exec (.stRegs x) s = .next t ∧
      u.mem = t.mem ∧ u.I = s.I ∧ exec (.ldRegs x) u = .next v ∧ k.toNat ≤ x.toNat := ⟨{ running with I := 0x300 }, _, _, _, 0x1, 0x1, by decide, by decide, rfl, rfl, rfl, rfl, by decide⟩

theorem witness_DrawInvertsTheCoveredPixels :
    ∃ (s : State) (x y n : Digit) (r r' : Fin 32) (c c' : Fin 64), s.I.toNat + n.toNat - 1 ≤ 0xFFF ∧
      spriteCovers s x y n r c ∧ ¬ spriteCovers s x y n r' c' := by
  refine ⟨{ running with I := 0x09B }, 0x0, 0x1, 0x5, 0, 31, 0, 63, by decide, ⟨0, by decide, 0, by decide, by decide, (⟨rfl, rfl⟩ : (0 : Nat) = 0 ∧ (0 : Nat) = 0)⟩, ?_⟩
  rintro ⟨row, hrow, col, hcol, -, hr, -⟩
  have h : (31 : Nat) = 0 + row := hr
  have h' : row < 5 := hrow
  omega

theorem witness_DrawInvertsTheCoveredPixels_edges :
    (∃ n : Digit, n = 0) ∧ (State.I { running with I := 0xFFF }).toNat + (1 : Digit).toNat - 1 ≤ 0xFFF := ⟨⟨0, rfl⟩, by decide⟩

theorem witness_CollisionFlagIsExact :
    (∃ (s : State) (x y n : Digit) (r : Fin 32) (c : Fin 64), s.I.toNat + n.toNat - 1 ≤ 0xFFF ∧ spriteCovers s x y n r c ∧
      Display.get s.disp r c = true) ∧
      ∃ (s : State) (x y n : Digit), n = 0 ∧ ¬ ∃ r c, spriteCovers s x y n r c ∧ Display.get s.disp r c = true := by
  refine ⟨⟨{ running with I := 0x050, disp := Display.toggle Display.clear 0 0 }, 0x0, 0x1, 0x5, 0, 0, by decide,
    ⟨0, by decide, 0, by decide, by decide, (⟨rfl, rfl⟩ : (0 : Nat) = 0 ∧ (0 : Nat) = 0)⟩, by decide⟩, ⟨running, 0x0, 0x1, 0x0, rfl, ?_⟩⟩
  rintro ⟨r, c, ⟨row, hrow, -⟩, -⟩
  exact absurd hrow (Nat.not_lt_zero _)

theorem witness_DrawingTwiceRestoresTheDisplay :
    ∃ (s t u : State) (x y n : Digit), x ≠ 0xF ∧ y ≠ 0xF ∧ faultOf (.drw x y n) s = none ∧
      exec (.drw x y n) s = .next t ∧ exec (.drw x y n) t = .next u := ⟨{ running with I := 0x050 }, _, _, 0x0, 0x1, 0x1, by decide, by decide, by decide, rfl, rfl⟩

theorem witness_DrawingTwiceRestoresTheDisplay_VF :
    ∃ (s t u : State), faultOf (.drw 0xF 0xF 0x1) s = none ∧ exec (.drw 0xF 0xF 0x1) s = .next t ∧
      exec (.drw 0xF 0xF 0x1) t = .next u ∧ (t.getV 0xF).toNat % 64 = (s.getV 0xF).toNat % 64 ∧
      (t.getV 0xF).toNat % 32 = (s.getV 0xF).toNat % 32 ∧ t.getV 0xF ≠ s.getV 0xF := ⟨{ running.setV 0xF 0xC0 with I := 0x050 }, _, _, by decide, rfl, rfl, by decide, by decide, by decide⟩

theorem witness_SkipsOnAKey :
    ∃ (s : State) (x k k' : Digit), (s.getV x).toNat = k.toNat ∧ s.keyDown k = true ∧
      (running.getV x).toNat = k'.toNat ∧ running.keyDown k' = false := ⟨{ running.setV 0x5 0xF with keys := running.keys.set 15 true }, 0x5, 0xF, 0x0, by decide, by decide, by decide, by decide⟩

theorem witness_KeyIndexFollowsThePolicy :
    (∃ (s : State) (x k : Digit), (s.getV x).toNat > 0xF ∧ (s.getV x).toNat % 16 = k.toNat ∧ s.cfg.keyIndexPolicy = .fault) ∧
      ∃ (s : State) (x k : Digit), (s.getV x).toNat > 0xF ∧ (s.getV x).toNat % 16 = k.toNat ∧ s.cfg.keyIndexPolicy = .lowNibble := ⟨⟨running.setV 0x5 0x10, 0x5, 0x0, by decide, by decide, rfl⟩,
    ⟨{ running.setV 0x5 0xFF with cfg := { Config.default with keyIndexPolicy := .lowNibble } }, 0x5, 0xF, by decide, by decide, rfl⟩⟩

theorem witness_KeyWaitCompletesWithALatchedKey :
    ∃ s s' x, State.engineTurn s s' ∧ s.run = .awaitingKey x ∧ ∃ k : Fin 16, s.keyEdge[k] = true := ⟨{ running with run := .awaitingKey 0xF, keyEdge := running.keyEdge.set 15 true }, _, 0xF, .inl ⟨rfl, rfl⟩, rfl, 15, by decide⟩

theorem witness_KeyWriteSetsKeysAndEdges :
    (∃ s s' mask values, State.eventTurn s (.keyWrite mask values) s' ∧ ∃ x, s.run = .awaitingKey x) ∧
      ∃ s s' mask values, State.eventTurn s (.keyWrite mask values) s' ∧ ¬ ∃ x, s.run = .awaitingKey x := ⟨⟨{ running with run := .awaitingKey 0x0, sched := [.keyWrite 0xFFFF 0x8001] }, _, 0xFFFF, 0x8001, ⟨[], rfl, rfl⟩, 0x0, rfl⟩,
    ⟨{ running with sched := [.keyWrite 0x0000 0xFFFF] }, _, 0x0000, 0xFFFF, ⟨[], rfl, rfl⟩, by rintro ⟨x, h⟩; cases h⟩⟩

theorem witness_TickCountsDownClamped :
    (∃ s s', State.eventTurn s .tick s' ∧ s.run = .running) ∧ (∃ s s' x, State.eventTurn s .tick s' ∧ s.run = .awaitingKey x) ∧
      (∃ s s', State.eventTurn s .tick s' ∧ s.run = .ready ∧ s.DT ≠ 0) ∧ ∃ s s', State.eventTurn s .tick s' ∧ s.ended ∧ s.ST ≠ 0 := ⟨⟨{ running with sched := [.tick] }, _, ⟨[], rfl, rfl⟩, rfl⟩, ⟨{ running with run := .awaitingKey 0x0, sched := [.tick] }, _, 0x0, ⟨[], rfl, rfl⟩, rfl⟩,
    ⟨{ State.reset with DT := 1, sched := [.tick] }, _, ⟨[], rfl, rfl⟩, rfl, by decide⟩,
    ⟨{ running with run := .halted .stopped, ST := 1, sched := [.tick] }, _, ⟨[], rfl, rfl⟩, ⟨.stopped, rfl⟩, by decide⟩⟩

theorem witness_TicksRunTheTimersDown :
    ∃ (n : Nat) (s : State) (rest : List Event), s.run = .running ∧ s.sched = List.replicate n .tick ++ rest := ⟨2, { running with sched := [.tick, .tick, .stop] }, [.stop], rfl, rfl⟩

theorem witness_TimersChangeOnlyByTickOrWrite :
    (∃ s t, step s = .next t ∧ s.nextEvent.1 ≠ .tick ∧ t.DT ≠ s.DT) ∧ ∃ s t, step s = .next t ∧ s.nextEvent.1 ≠ .tick ∧ t.ST ≠ s.ST := ⟨⟨(running.setV 0x1 0x01).withFetchWord 16 0xF115, _, rfl, by decide, by decide⟩,
    ⟨(running.setV 0x2 0xFF).withFetchWord 16 0xF218, _, rfl, by decide, by decide⟩⟩

theorem witness_LoadCopiesTheImage :
    ∃ s s' rom, State.eventTurn s (.load rom) s' ∧ s.run = .ready ∧ Memory.wf s.mem ∧ rom.length = 3584 := ⟨{ State.reset with sched := [.load (List.replicate 3584 0x01)] }, _, _, ⟨[], rfl, rfl⟩, rfl, by decide, List.length_replicate⟩

theorem witness_LoadCopiesTheImage_short :
    ∃ s s', State.eventTurn s (.load []) s' ∧ s.run = .ready ∧ Memory.wf s.mem ∧ ([] : List Byte).length ≤ 0 ∧ 0 < 3584 := ⟨{ State.reset with sched := [.load []] }, _, ⟨[], rfl, rfl⟩, rfl, by decide, by decide, by decide⟩

theorem witness_RefusedLoadChangesNothing :
    (∃ s s' rom, State.eventTurn s (.load rom) s' ∧ s.run = .ready ∧ rom.length > 3584) ∧
      ∃ s s' rom, State.eventTurn s (.load rom) s' ∧ s.run ≠ .ready := ⟨⟨{ State.reset with sched := [.load (List.replicate 3585 0x01)] }, _, _, ⟨[], rfl, rfl⟩, rfl, by rw [List.length_replicate]; decide⟩,
    ⟨{ running with sched := [.load []] }, _, [], ⟨[], rfl, rfl⟩, by decide⟩⟩

theorem witness_StartAndStopSetTheRunState :
    (∃ s s', State.eventTurn s .start s' ∧ s.run = .ready) ∧ (∃ s s', State.eventTurn s .start s' ∧ s.run ≠ .ready) ∧
      (∃ s s', State.eventTurn s .stop s' ∧ ¬ s.ended) ∧ ∃ s s', State.eventTurn s .stop s' ∧ s.ended := ⟨⟨{ State.reset with sched := [.start] }, _, ⟨[], rfl, rfl⟩, rfl⟩, ⟨{ running with sched := [.start] }, _, ⟨[], rfl, rfl⟩, by decide⟩,
    ⟨{ running with sched := [.stop] }, _, ⟨[], rfl, rfl⟩, by rintro ⟨w, h⟩; cases h⟩,
    ⟨{ running with run := .halted .stopped, sched := [.stop] }, _, ⟨[], rfl, rfl⟩, .stopped, rfl⟩⟩

theorem witness_HaltedIsTerminal :
    (∃ s why s', s.run = .halted why ∧ State.engineTurn s s') ∧
      (∃ s why t, s.run = .halted why ∧ step s = .next t ∧ t.keys ≠ s.keys ∧ ∀ rom, s.nextEvent.1 ≠ .load rom) ∧
      ∃ s why t, s.run = .halted why ∧ step s = .next t ∧ t.outputs ≠ s.outputs ∧ ∀ mask values, s.nextEvent.1 ≠ .keyWrite mask values := ⟨⟨{ running with run := .halted .stopped }, .stopped, _, rfl, .inl ⟨rfl, rfl⟩⟩,
    ⟨{ running with run := .halted .stopped, sched := [.keyWrite 1 1] }, .stopped, _, rfl, rfl, by decide, fun _ h => by cases h⟩,
    ⟨{ running with run := .halted .stopped, sched := [.load []] }, .stopped, _, rfl, rfl, by decide, fun _ _ h => by cases h⟩⟩

theorem witness_RunStateMovesOnlyAsListed :
    (∃ s t, step s = .next t ∧ s.run ≠ t.run) ∧ ∃ s t, step s = .next t ∧ s.run = t.run := ⟨⟨{ State.reset with sched := [.start] }, _, rfl, by decide⟩, ⟨State.reset, _, rfl, rfl⟩⟩

theorem witness_ListedFaultsHaltPrecisely :
    faultOf .ret running = some .stackUnderflow ∧ faultOf (.call 0x300) { running with sp := 16 } = some .stackOverflow ∧
      faultOf (.drw 0 1 2) { running with I := 0xFFF } = some (.memOutOfRange 0x1000) ∧
      faultOf (.ldB 0) { running with I := 0xFFE } = some (.memOutOfRange 0x1000) ∧
      faultOf (.stRegs 0xF) { running with I := 0xFF1 } = some (.memOutOfRange 0x1000) ∧
      faultOf (.skp 0x5) (running.setV 0x5 0x10) = some (.keyIndexOutOfRange 0x10) := by decide

theorem witness_WithoutAFaultOnlyTheListedPiecesChange :
    faultOf .ret { running with sp := 1 } = none ∧ faultOf (.call 0x300) { running with sp := 15 } = none ∧
      faultOf (.drw 0 1 0) { running with I := 0xFFFF } = none ∧ faultOf (.ldB 0) { running with I := 0xFFD } = none ∧
      faultOf (.ldRegs 0xF) { running with I := 0xFF0 } = none ∧ faultOf (.sknp 0x5) (running.setV 0x5 0x0F) = none ∧
      faultOf .cls running = none := by decide

theorem witness_StepKeepsTheMemoryForm :
    ∃ s t, Memory.wf s.mem ∧ step s = .next t ∧ t.mem ≠ s.mem := ⟨State.withFetchWord { running.setV 0x3 0xFF with I := 0xFFD } 16 0xF333, _, by decide, rfl, by decide⟩

/-- Reset meets the control invariant. -/
theorem reset_controlInv : State.reset.controlInv := by
  refine ⟨by unfold State.pcBounded; decide, fun j hj h => absurd h (Nat.not_lt_zero _), fun _ => rfl, fun _ => rfl, ?_⟩
  intro r h
  cases h

theorem witness_StepKeepsTheControlInvariant :
    ∃ s t, s.controlInv ∧ step s = .next t ∧ t.run ≠ s.run := ⟨{ State.reset with sched := [.start] }, _, reset_controlInv, rfl, by decide⟩

theorem witness_ParametersAreFixedAndKeysAreTheHosts :
    ∃ s t, step s = .next t ∧ ∀ mask values, s.nextEvent.1 ≠ .keyWrite mask values := ⟨running, _, rfl, fun _ _ h => by cases h⟩

end Sys2Proof.Tests
end

/-! ### What the decoder answers: a word's row of the opcode map, and the word again (30_encoding.md R84) -/

section
namespace Sys2Proof

/-! ### The fields of a masked word -/

theorem Word.op_and (w m : Word) : (w &&& m).op = w.op &&& m.op := BitVec.extractLsb'_and

theorem Word.n_and (w m : Word) : (w &&& m).n = w.n &&& m.n := BitVec.extractLsb'_and

theorem Word.nn_and (w m : Word) : (w &&& m).nn = w.nn &&& m.nn := BitVec.extractLsb'_and

/-! ### A row whose mask covers a field fixes that field of the words it matches -/

section
variable {name : String} {pattern mask w : Word}

theorem OpcodeRow.and_mask_of_matchesWord (h : matchesWord ⟨name, pattern, mask⟩ w = true) :
    w &&& mask = pattern := beq_iff_eq.1 h

theorem OpcodeRow.op_of_matchesWord (h : matchesWord ⟨name, pattern, mask⟩ w = true)
    (hmask : mask.op = 0xF) : w.op = pattern.op := by
  rw [← and_mask_of_matchesWord h, Word.op_and, hmask]
  exact BitVec.and_allOnes.symm

theorem OpcodeRow.n_of_matchesWord (h : matchesWord ⟨name, pattern, mask⟩ w = true)
    (hmask : mask.n = 0xF) : w.n = pattern.n := by
  rw [← and_mask_of_matchesWord h, Word.n_and, hmask]
  exact BitVec.and_allOnes.symm

theorem OpcodeRow.nn_of_matchesWord (h : matchesWord ⟨name, pattern, mask⟩ w = true)
    (hmask : mask.nn = 0xFF) : w.nn = pattern.nn := by
  rw [← and_mask_of_matchesWord h, Word.nn_and, hmask]
  exact BitVec.and_allOnes.symm

theorem OpcodeRow.eq_pattern_of_matchesWord (h : matchesWord ⟨name, pattern, 0xFFFF⟩ w = true) :
    w = pattern :=
  BitVec.and_allOnes.symm.trans (and_mask_of_matchesWord h)

end

/-- The opcode map lists rows of instructions only. -/
theorem exists_row_eq_of_mem_opcodeTable : ∀ r ∈ opcodeTable, ∃ i : Instr, i.row = r := by
  simp only [opcodeTable, opcodeRows0to8, opcodeRows9toF, List.cons_append, List.nil_append,
    List.mem_cons, List.not_mem_nil, or_false, forall_eq_or_imp, forall_eq]
  and_intros <;> exact ⟨_, rfl⟩

/-! ### A decoding's row -/

/-- The row of the opcode map a decoding stands for; none for an unknown word. -/
def Decoded.row? : Decoded → Option OpcodeRow
  | .instr i   => some i.row
  | .unknown _ => none

/-- A word that an instruction's row matches decodes to an instruction of that row: the row's mask fixes
the fields `Decode` selects by, the family nibble and then n or nn (30_encoding.md R84). -/
theorem decode_row_of_matchesWord (i : Instr) (w : Word) (h : i.row.matchesWord w = true) :
    (decode w).row? = some i.row := by
  cases i with
  | cls | ret => rw [OpcodeRow.eq_pattern_of_matchesWord h]; rfl
  | jp | call | seImm | sneImm | ldImm | addImm | ldI | jpV0 | rnd | drw =>
    have hop := OpcodeRow.op_of_matchesWord h rfl
    rw [decode, hop]; rfl
  | seReg | sneReg =>
    have hop := OpcodeRow.op_of_matchesWord h rfl
    have hn := OpcodeRow.n_of_matchesWord h rfl
    rw [decode, hop, hn]; rfl
  | ldReg | orReg | andReg | xorReg | addReg | subReg | shr | subn | shl =>
    have hop := OpcodeRow.op_of_matchesWord h rfl
    have hn := OpcodeRow.n_of_matchesWord h rfl
    rw [decode, hop]
    change (decodeFamily8 w).row? = _
    rw [decodeFamily8, hn]; rfl
  | skp | sknp =>
    have hop := OpcodeRow.op_of_matchesWord h rfl
    have hnn := OpcodeRow.nn_of_matchesWord h rfl
    rw [decode, hop]
    change (decodeFamilyE w).row? = _
    rw [decodeFamilyE, hnn]; rfl
  | ldVxDT | ldVxK | ldDTVx | ldSTVx | addI | ldF | ldB | stRegs | ldRegs =>
    have hop := OpcodeRow.op_of_matchesWord h rfl
    have hnn := OpcodeRow.nn_of_matchesWord h rfl
    rw [decode, hop]
    change (decodeFamilyF w).row? = _
    rw [decodeFamilyF, hnn]; rfl

/-! ### A decoding's word -/

/-- The word a decoding stands for: the instruction's encoding, or the unknown word itself. -/
def Decoded.word : Decoded → Word
  | .instr i   => i.encode
  | .unknown w => w

section
variable {w : Word} {op n : Digit} {nn : Byte}

theorem Word.ofNnn_of_op (hop : w.op.toNat = op.toNat) : Word.ofNnn op w.nnn = w := by
  rw [← BitVec.eq_of_toNat_eq hop, Word.ofNnn_fields]

theorem Word.ofXnn_of_op (hop : w.op.toNat = op.toNat) : Word.ofXnn op w.x w.nn = w := by
  rw [← BitVec.eq_of_toNat_eq hop, Word.ofXnn_fields]

theorem Word.ofXyn_of_op (hop : w.op.toNat = op.toNat) : Word.ofXyn op w.x w.y w.n = w := by
  rw [← BitVec.eq_of_toNat_eq hop, Word.ofXyn_fields]

theorem Word.ofXyn_of_op_n (hop : w.op.toNat = op.toNat) (hn : w.n.toNat = n.toNat) :
    Word.ofXyn op w.x w.y n = w := by
  rw [← BitVec.eq_of_toNat_eq hn, Word.ofXyn_of_op hop]

theorem Word.ofXnn_of_op_nn (hop : w.op.toNat = op.toNat) (hnn : w.nn.toNat = nn.toNat) :
    Word.ofXnn op w.x nn = w := by
  rw [← BitVec.eq_of_toNat_eq hnn, Word.ofXnn_of_op hop]

theorem decodeFamily0_word : (decodeFamily0 w).word = w := by
  unfold decodeFamily0
  split
  · next h => exact h.symm
  · split
    · next h => exact h.symm
    · rfl

theorem decodeFamily8_word (hop : w.op.toNat = 0x8) : (decodeFamily8 w).word = w := by
  unfold decodeFamily8
  split
  case h_10 => rfl
  all_goals next hn => exact Word.ofXyn_of_op_n hop hn

theorem decodeFamilyE_word (hop : w.op.toNat = 0xE) : (decodeFamilyE w).word = w := by
  unfold decodeFamilyE
  split
  case h_3 => rfl
  all_goals next hnn => exact Word.ofXnn_of_op_nn hop hnn

theorem decodeFamilyF_word (hop : w.op.toNat = 0xF) : (decodeFamilyF w).word = w := by
  unfold decodeFamilyF
  split
  case h_10 => rfl
  all_goals next hnn => exact Word.ofXnn_of_op_nn hop hnn

end

/-- Decoding loses no bit: the encoding of a decoded word is the word, and an unknown word is kept. The
cases h_1 to h_16 are the families 0 to F. -/
theorem decode_word (w : Word) : (decode w).word = w := by
  unfold decode
  split
  case h_1 => exact decodeFamily0_word
  case h_2 hop | h_3 hop | h_11 hop | h_12 hop => exact Word.ofNnn_of_op hop
  case h_4 hop | h_5 hop | h_7 hop | h_8 hop | h_13 hop => exact Word.ofXnn_of_op hop
  case h_6 hop | h_10 hop =>
    split
    · next hn => exact Word.ofXyn_of_op_n hop (congrArg BitVec.toNat hn)
    · rfl
  case h_9 hop => exact decodeFamily8_word hop
  case h_14 hop => exact Word.ofXyn_of_op hop
  case h_15 hop => exact decodeFamilyE_word hop
  case h_16 hop => exact decodeFamilyF_word hop
  case h_17 => rfl

/-! ### The opcode map -/

/-- The lemmas of the family OpcodeRows as one. -/
theorem Instr.opcodeRows (i : Instr) : Laws.OpcodeRows.Statement i := by
  cases i with
  | cls => exact Laws.OpcodeRows.cls
  | ret => exact Laws.OpcodeRows.ret
  | jp nnn => exact Laws.OpcodeRows.jp nnn
  | call nnn => exact Laws.OpcodeRows.call nnn
  | seImm x nn => exact Laws.OpcodeRows.seImm x nn
  | sneImm x nn => exact Laws.OpcodeRows.sneImm x nn
  | seReg x y => exact Laws.OpcodeRows.seReg x y
  | ldImm x nn => exact Laws.OpcodeRows.ldImm x nn
  | addImm x nn => exact Laws.OpcodeRows.addImm x nn
  | ldReg x y => exact Laws.OpcodeRows.ldReg x y
  | orReg x y => exact Laws.OpcodeRows.orReg x y
  | andReg x y => exact Laws.OpcodeRows.andReg x y
  | xorReg x y => exact Laws.OpcodeRows.xorReg x y
  | addReg x y => exact Laws.OpcodeRows.addReg x y
  | subReg x y => exact Laws.OpcodeRows.subReg x y
  | shr x y => exact Laws.OpcodeRows.shr x y
  | subn x y => exact Laws.OpcodeRows.subn x y
  | shl x y => exact Laws.OpcodeRows.shl x y
  | sneReg x y => exact Laws.OpcodeRows.sneReg x y
  | ldI nnn => exact Laws.OpcodeRows.ldI nnn
  | jpV0 nnn => exact Laws.OpcodeRows.jpV0 nnn
  | rnd x nn => exact Laws.OpcodeRows.rnd x nn
  | drw x y n => exact Laws.OpcodeRows.drw x y n
  | skp x => exact Laws.OpcodeRows.skp x
  | sknp x => exact Laws.OpcodeRows.sknp x
  | ldVxDT x => exact Laws.OpcodeRows.ldVxDT x
  | ldVxK x => exact Laws.OpcodeRows.ldVxK x
  | ldDTVx x => exact Laws.OpcodeRows.ldDTVx x
  | ldSTVx x => exact Laws.OpcodeRows.ldSTVx x
  | addI x => exact Laws.OpcodeRows.addI x
  | ldF x => exact Laws.OpcodeRows.ldF x
  | ldB x => exact Laws.OpcodeRows.ldB x
  | stRegs x => exact Laws.OpcodeRows.stRegs x
  | ldRegs x => exact Laws.OpcodeRows.ldRegs x

/-- The row of a decoding is the only row of the opcode map that can match the word. -/
theorem decode_row_eq_of_mem_of_matchesWord {r : OpcodeRow} {w : Word} (hr : r ∈ opcodeTable)
    (h : r.matchesWord w = true) : (decode w).row? = some r := by
  obtain ⟨i, rfl⟩ := exists_row_eq_of_mem_opcodeTable r hr
  exact decode_row_of_matchesWord i w h

/-- Settles O2: a decoding keeps the word (`decode_word`), and every row that matches the word is the
decoding's row (`decode_row_eq_of_mem_of_matchesWord`), of which an unknown word has none. -/
theorem decodeFollowsTheOpcodeMap : Obligations.DecodeFollowsTheOpcodeMap := by
  unfold Obligations.DecodeFollowsTheOpcodeMap
  intro w
  have hword := decode_word w
  have hrow (r) (hr : r ∈ opcodeTable) (h : r.matchesWord w = true) :=
    decode_row_eq_of_mem_of_matchesWord hr h
  cases hd : decode w with
  | instr i =>
    rw [hd] at hword hrow
    have hencode : i.encode = w := hword
    obtain ⟨hmem, hmatch⟩ := i.opcodeRows
    rw [hencode] at hmatch
    exact .inl ⟨i, rfl, hencode, hmem, hmatch, fun r hr h => (Option.some.inj (hrow r hr h)).symm⟩
  | unknown v =>
    rw [hd] at hword hrow
    have hv : v = w := hword
    exact .inr ⟨congrArg Decoded.unknown hv, fun r hr => Bool.eq_false_iff.2 fun h => nomatch hrow r hr h⟩

end Sys2Proof
end

/-! ### The accesses of memory at I, where the fault table lists no cause (60_exceptions.md R300), and
the advance of the pc (40_engine.md R104) -/

section
namespace Sys2Proof.Machine

section
variable {s : State} {x y n : Digit}

/-! ### The table's cause of an access at I is the negation of the check the model makes -/

theorem faultOf_drw_eq_none_iff : faultOf (.drw x y n) s = none ↔ s.spanInRange n.toNat = true := by
  have hzero : n = 0 ↔ n.toNat = 0 := BitVec.toNat_inj.symm
  rw [State.spanInRange_iff, faultOf, ite_eq_right_iff, ne_eq, hzero]
  simp only [reduceCtorEq, imp_false]
  omega

theorem faultOf_ldB_eq_none_iff : faultOf (.ldB x) s = none ↔ s.spanInRange 3 = true := by
  simp [State.spanInRange_iff, faultOf]

theorem faultOf_stRegs_eq_none_iff :
    faultOf (.stRegs x) s = none ↔ s.spanInRange (x.toNat + 1) = true := by
  simp [State.spanInRange_iff, faultOf]

theorem faultOf_ldRegs_eq_none_iff :
    faultOf (.ldRegs x) s = none ↔ s.spanInRange (x.toNat + 1) = true := by
  simp [State.spanInRange_iff, faultOf]

/-! ### The step of an instruction that accesses memory at I, where the check passes -/

/-- The display and the collision a sprite draw leaves (44_display.md R232). -/
def State.drawSprite (s : State) (x y n : Digit) : Drawing :=
  drawRows s.cfg.drawEdge (startColumn (s.getV x)) (startRow (s.getV y))
    (s.bytesAtI n.toNat) (s.disp, false)

theorem exec_drw_of_spanInRange (h : s.spanInRange n.toNat = true) :
    exec (.drw x y n) s =
      .next ((s.advance.setDisp (s.drawSprite x y n).1).setFlag (s.drawSprite x y n).2) :=
  if_pos h

theorem exec_ldB_of_spanInRange (h : s.spanInRange 3 = true) :
    exec (.ldB x) s = .next (s.advance.writeBytes s.I.toNat (bcdDigits (s.getV x))) :=
  if_pos h

theorem exec_stRegs_of_spanInRange (h : s.spanInRange (x.toNat + 1) = true) :
    exec (.stRegs x) s =
      .next ((s.advance.writeBytes s.I.toNat (s.regsUpTo x)).setI
        (indexAfter s.cfg.loadStoreIncrementsI s.I x)) :=
  if_pos h

theorem exec_ldRegs_of_spanInRange (h : s.spanInRange (x.toNat + 1) = true) :
    exec (.ldRegs x) s =
      .next ((s.advance.setRegs (s.regsFromMemory x)).setI
        (indexAfter s.cfg.loadStoreIncrementsI s.I x)) :=
  if_pos h

end

/-- Settles O18: of the instructions that write no pc, those that access no memory advance it by their
one outcome, and the four that do advance it where the check of the access passes, which is where the
fault table lists no cause. -/
theorem fallThroughAdvancesByTwo : Obligations.FallThroughAdvancesByTwo := by
  unfold Obligations.FallThroughAdvancesByTwo
  intro i s t hwrites hfault hexec
  cases i with
  | ret | jp _ | call _ | jpV0 _ | seImm _ _ | sneImm _ _ | seReg _ _ | sneReg _ _ | skp _ | sknp _ =>
    cases hwrites
  | drw x y n =>
    cases (exec_drw_of_spanInRange (faultOf_drw_eq_none_iff.1 hfault)).symm.trans hexec
    simp
  | ldB x =>
    cases (exec_ldB_of_spanInRange (faultOf_ldB_eq_none_iff.1 hfault)).symm.trans hexec
    simp
  | stRegs x =>
    cases (exec_stRegs_of_spanInRange (faultOf_stRegs_eq_none_iff.1 hfault)).symm.trans hexec
    simp
  | ldRegs x =>
    cases (exec_ldRegs_of_spanInRange (faultOf_ldRegs_eq_none_iff.1 hfault)).symm.trans hexec
    simp
  | cls | ldImm _ _ | addImm _ _ | ldReg _ _ | orReg _ _ | andReg _ _ | xorReg _ _ | addReg _ _
  | subReg _ _ | shr _ _ | subn _ _ | shl _ _ | ldI _ | rnd _ _ | ldVxDT _ | ldVxK _ | ldDTVx _
  | ldSTVx _ | addI _ | ldF _ =>
    cases hexec
    simp

end Sys2Proof.Machine
end

/-! ### Jumps and skips: the words of the transfers, and the pc as all they change (41_control_flow.md
R133, R135 to R139) -/

section
namespace Sys2Proof

/-! ### The decoding of a transfer's word -/

theorem decode_jp (nnn : Addr12) : decode (Word.ofNnn 0x1 nnn) = .instr (.jp nnn) := by
  simp [decode, Word.op_ofNnn, Word.nnn_ofNnn]

theorem decode_jpV0 (nnn : Addr12) : decode (Word.ofNnn 0xB nnn) = .instr (.jpV0 nnn) := by
  simp [decode, Word.op_ofNnn, Word.nnn_ofNnn]

theorem decode_seImm (x : Digit) (nn : Byte) :
    decode (Word.ofXnn 0x3 x nn) = .instr (.seImm x nn) := by
  simp [decode, Word.op_ofXnn, Word.x_ofXnn, Word.nn_ofXnn]

theorem decode_sneImm (x : Digit) (nn : Byte) :
    decode (Word.ofXnn 0x4 x nn) = .instr (.sneImm x nn) := by
  simp [decode, Word.op_ofXnn, Word.x_ofXnn, Word.nn_ofXnn]

/-- Family 5 has the one row n = 0 (90_conflicts.md C5). -/
theorem decode_family5 (x y n : Digit) :
    decode (Word.ofXyn 0x5 x y n) =
      if n = 0 then .instr (.seReg x y) else .unknown (Word.ofXyn 0x5 x y n) := by
  simp [decode, Word.op_ofXyn, Word.x_ofXyn, Word.y_ofXyn, Word.n_ofXyn]

/-- Family 9 has the one row n = 0 (90_conflicts.md C5). -/
theorem decode_family9 (x y n : Digit) :
    decode (Word.ofXyn 0x9 x y n) =
      if n = 0 then .instr (.sneReg x y) else .unknown (Word.ofXyn 0x9 x y n) := by
  simp [decode, Word.op_ofXyn, Word.x_ofXyn, Word.y_ofXyn, Word.n_ofXyn]

end Sys2Proof

namespace Sys2Proof.Machine

/-! ### The targets -/

theorem address_toNat (nnn : Addr12) : (address nnn).toNat = nnn.toNat :=
  BitVec.toNat_setWidth_of_le (by decide)

theorem extend_toNat (b : Byte) : (extend b).toNat = b.toNat :=
  BitVec.toNat_setWidth_of_le (by decide)

/-- The target of Bnnn is at most 0xFFF + 0xFF, so the sum does not wrap. -/
theorem address_add_extend_toNat (nnn : Addr12) (b : Byte) :
    (address nnn + extend b).toNat = nnn.toNat + b.toNat := by
  have hnnn := nnn.isLt
  have hb := b.isLt
  rw [BitVec.toNat_add, address_toNat, extend_toNat, Nat.mod_eq_of_lt (by omega)]

section
variable {s : State}

/-! ### A write of the pc alone -/

theorem State.sameExcept_setPc (w : Word) : SameExcept [.pc] s (s.setPc w) := by
  intro p hp
  cases p with
  | pc => exact absurd (List.mem_singleton_self _) hp
  | mem | V => exact fun _ => rfl
  | I | stack | sp | DT | ST | disp | keys | run | keyEdge | cfg | sched | draws | outputs => rfl

theorem State.setPc_eq_self {w : Word} (h : w.toNat = s.pc.toNat) : s.setPc w = s := by
  rw [BitVec.eq_of_toNat_eq h]; rfl

theorem State.fetch_setPc_of_ge {w : Word} (h : 0xFFF ≤ w.toNat) : (s.setPc w).fetch = none :=
  State.fetch_of_gt (Nat.lt_succ_of_le h)

/-! ### The outcomes, as a write of the pc of the state before the fetch -/

theorem exec_jp (nnn : Addr12) : exec (.jp nnn) s = .next (s.setPc (address nnn)) := rfl

theorem exec_jpV0 (nnn : Addr12) :
    exec (.jpV0 nnn) s = .next (s.setPc (address nnn + extend (s.getV 0))) := rfl

theorem State.advance_skipIf_true : s.advance.skipIf true = s.setPc (s.pc + 4) :=
  congrArg s.setPc (BitVec.add_assoc s.pc 2 2)

theorem State.advance_skipIf_false : s.advance.skipIf false = s.setPc (s.pc + 2) := rfl

/-- A skip on a condition that p makes true and q makes false: the pc passes the next word under p and
stands at it under q, and nothing else changes. -/
theorem State.advance_skipIf_spec {c : Bool} {p q : Prop} (hp : p → c = true) (hq : q → c = false) :
    SameExcept [.pc] s (s.advance.skipIf c) ∧
      (p → (s.advance.skipIf c).pc = s.pc + 4) ∧ (q → (s.advance.skipIf c).pc = s.pc + 2) := by
  cases c with
  | true =>
    rw [advance_skipIf_true]
    exact ⟨sameExcept_setPc _, fun _ => rfl, fun h => absurd (hq h).symm Bool.false_ne_true⟩
  | false =>
    rw [advance_skipIf_false]
    exact ⟨sameExcept_setPc _, fun h => absurd (hp h) Bool.false_ne_true, fun _ => rfl⟩

end

/-- Settles O16: each is a skip (`State.advance_skipIf_spec`) on the comparison of V[x] with nn. -/
theorem skipsOnAnImmediate : Obligations.SkipsOnAnImmediate := by
  unfold Obligations.SkipsOnAnImmediate
  intro s x nn
  refine ⟨decode_seImm x nn, decode_sneImm x nn, ⟨_, rfl, ?_⟩, ⟨_, rfl, ?_⟩⟩
  · exact State.advance_skipIf_spec beq_iff_eq.2 beq_false_of_ne
  · exact State.advance_skipIf_spec bne_iff_ne.2 bne_eq_false_iff_eq.2

/-- Settles O17: each is a skip (`State.advance_skipIf_spec`) on the comparison of V[x] with V[y], and
its family has no row for another n. -/
theorem skipsOnARegister : Obligations.SkipsOnARegister := by
  unfold Obligations.SkipsOnARegister
  intro s x y n
  refine ⟨decode_family5 x y 0, decode_family9 x y 0, fun hn => ⟨?_, ?_⟩, ⟨_, rfl, ?_⟩, ⟨_, rfl, ?_⟩⟩
  · rw [decode_family5, if_neg hn]
  · rw [decode_family9, if_neg hn]
  · exact State.advance_skipIf_spec beq_iff_eq.2 beq_false_of_ne
  · exact State.advance_skipIf_spec bne_iff_ne.2 bne_eq_false_iff_eq.2

/-- Settles O14: the outcome is a write of the pc (`exec_jp`), and that of the pc it has changes
nothing. -/
theorem jumpSetsThePc : Obligations.JumpSetsThePc := by
  unfold Obligations.JumpSetsThePc
  intro s nnn
  have hpc := address_toNat nnn
  exact ⟨decode_jp nnn, s.setPc (address nnn), exec_jp nnn, hpc, State.sameExcept_setPc _,
    fun hself => State.setPc_eq_self (hpc.trans hself),
    fun hlast => State.fetch_setPc_of_ge (hpc.trans hlast).ge⟩

/-- Settles O15: the outcome is a write of the pc (`exec_jpV0`) by a sum of 16 bits that does not wrap
(`address_add_extend_toNat`). -/
theorem jumpWithOffsetAddsV0 : Obligations.JumpWithOffsetAddsV0 := by
  unfold Obligations.JumpWithOffsetAddsV0
  intro s nnn
  have hpc := address_add_extend_toNat nnn (s.getV 0)
  exact ⟨decode_jpV0 nnn, s.setPc (address nnn + extend (s.getV 0)), exec_jpV0 nnn, hpc,
    State.sameExcept_setPc _, fun hge => State.fetch_setPc_of_ge (hge.trans_eq hpc.symm)⟩

end Sys2Proof.Machine
end

/-! ### Register loads and the ALU: the decoding of an instruction's word, the write of a result, and the
write of a result and then a flag (42_alu.md R161 to R163, R167 to R171) -/

section
namespace Sys2Proof

/-- An instruction's word decodes to it: its family nibble, and n or nn where they are sub-selectors, name
the row, and the other fields are its operands (30_encoding.md R82, R84). -/
theorem decode_encode (i : Instr) : decode i.encode = .instr i := by
  cases i with
  | cls | ret => rfl
  | jp | call | ldI | jpV0 => simp [Instr.encode, decode, Word.op_ofNnn, Word.nnn_ofNnn]
  | seImm | sneImm | ldImm | addImm | rnd =>
    simp [Instr.encode, decode, Word.op_ofXnn, Word.x_ofXnn, Word.nn_ofXnn]
  | seReg | sneReg | drw =>
    simp [Instr.encode, decode, Word.op_ofXyn, Word.x_ofXyn, Word.y_ofXyn, Word.n_ofXyn]
  | ldReg | orReg | andReg | xorReg | addReg | subReg | shr | subn | shl =>
    simp [Instr.encode, decode, decodeFamily8, Word.op_ofXyn, Word.x_ofXyn, Word.y_ofXyn, Word.n_ofXyn]
  | skp | sknp =>
    simp [Instr.encode, decode, decodeFamilyE, Word.op_ofXnn, Word.x_ofXnn, Word.nn_ofXnn]
  | ldVxDT | ldVxK | ldDTVx | ldSTVx | addI | ldF | ldB | stRegs | ldRegs =>
    simp [Instr.encode, decode, decodeFamilyF, Word.op_ofXnn, Word.x_ofXnn, Word.nn_ofXnn]

end Sys2Proof

namespace Sys2Proof.Machine

section
variable {a b : Byte}

/-! ### The flags as numbers -/

theorem flagByte_carryOut_toNat :
    (flagByte (carryOut a b)).toNat = if a.toNat + b.toNat > 255 then 1 else 0 := by
  simp [flagByte_toNat, carryOut]

theorem flagByte_noBorrow_toNat :
    (flagByte (noBorrow a b)).toNat = if a.toNat ≥ b.toNat then 1 else 0 := by
  simp [flagByte_toNat, noBorrow]

theorem flagByte_getLsbD_toNat (i : Nat) :
    (flagByte (a.getLsbD i)).toNat = a.toNat / 2 ^ i % 2 := by
  rw [← Nat.toNat_testBit, BitVec.testBit_toNat, flagByte_toNat]
  cases a.getLsbD i <;> rfl

theorem flagByte_bitOutRight_toNat : (flagByte (bitOutRight a)).toNat = a.toNat % 2 :=
  (flagByte_getLsbD_toNat 0).trans (by rw [Nat.pow_zero, Nat.div_one])

/-- Bit 7 is the highest, so no bit is above it to be dropped. -/
theorem flagByte_bitOutLeft_toNat : (flagByte (bitOutLeft a)).toNat = a.toNat / 128 :=
  (flagByte_getLsbD_toNat 7).trans (Nat.mod_eq_of_lt (by have := a.isLt; omega))

/-! ### The results as numbers -/

theorem byte_sub_toNat : ((a - b).toNat : Int) = (a.toNat - b.toNat : Int) % 256 := by
  rw [BitVec.toNat_sub]
  omega

theorem byte_shiftRight_one_toNat : (a >>> 1).toNat = a.toNat / 2 :=
  BitVec.toNat_ushiftRight a 1

theorem byte_shiftLeft_one_toNat : (a <<< 1).toNat = a.toNat * 2 % 256 := by
  rw [BitVec.toNat_shiftLeft, Nat.shiftLeft_eq, Nat.pow_one]

end

section
variable {s : State} {x : Digit} {b : Byte} {f : Bool}

/-! ### The outcomes, as a write of the state after the fetch's advance -/

theorem State.sameExcept_advance_setRegs (v : Vector Byte 16) :
    SameExcept [.pc, .V] s (s.advance.setRegs v) := by
  intro p hp
  cases p with
  | pc | V => simp at hp
  | mem => exact fun _ => rfl
  | I | stack | sp | DT | ST | disp | keys | run | keyEdge | cfg | sched | draws | outputs => rfl

/-- A result written to V[x]: it is V[x], and nothing but V[x] and the pc changes. -/
theorem State.advance_setV_spec :
    (s.advance.setV x b).getV x = b ∧ (s.advance.setV x b).pc = s.pc + 2 ∧
      SameRegsExcept [x] s (s.advance.setV x b) ∧ SameExcept [.pc, .V] s (s.advance.setV x b) := by
  refine ⟨by simp, rfl, fun k hk => ?_, sameExcept_advance_setRegs _⟩
  rw [getV_setV, if_neg fun h => hk (List.mem_singleton.2 h.symm), getV_advance]

/-- A result written to V[x] and then a flag to VF: the flag is VF whatever x is, the result is V[x]
where x is another register, and nothing but the two and the pc changes. The flag and what holds of the
result are said in the caller's terms. -/
theorem State.advance_setVThenFlag_spec {n : Nat} {p : Prop} (hflag : (flagByte f).toNat = n)
    (hresult : (s.advance.setVThenFlag x b f).getV x = b → p) :
    (s.advance.setVThenFlag x b f).pc = s.pc + 2 ∧
      ((s.advance.setVThenFlag x b f).getV 0xF).toNat = n ∧ (x ≠ 0xF → p) ∧
      SameRegsExcept [x, 0xF] s (s.advance.setVThenFlag x b f) ∧
      SameExcept [.pc, .V] s (s.advance.setVThenFlag x b f) := by
  refine ⟨rfl, ?_, fun hx => hresult ?_, fun k hk => ?_, sameExcept_advance_setRegs _⟩
  · rw [getV_setVThenFlag, if_pos (show VF = 0xF from rfl), hflag]
  · rw [getV_setVThenFlag, if_neg (show VF ≠ x from hx.symm), if_pos rfl]
  · obtain ⟨hkx, hkVF⟩ : k ≠ x ∧ k ≠ VF := by simpa [VF] using hk
    rw [getV_setVThenFlag, if_neg hkVF.symm, if_neg hkx.symm, getV_advance]

end

/-- Settles O22: the sum and then the carry are written (`State.advance_setVThenFlag_spec`), both from
operands read before either write. -/
theorem addSetsTheCarry : Obligations.AddSetsTheCarry := by
  unfold Obligations.AddSetsTheCarry
  intro s x y
  refine ⟨decode_encode (.addReg x y), _, rfl, ?_⟩
  exact State.advance_setVThenFlag_spec flagByte_carryOut_toNat fun h => by rw [h, BitVec.toNat_add]

/-- Settles O23: a difference and then its no-borrow flag are written
(`State.advance_setVThenFlag_spec`), the operands of the two instructions in opposite order. -/
theorem subtractsSetNoBorrow : Obligations.SubtractsSetNoBorrow := by
  unfold Obligations.SubtractsSetNoBorrow
  intro s x y
  refine ⟨decode_encode (.subReg x y), decode_encode (.subn x y), ⟨_, rfl, ?_⟩, ⟨_, rfl, ?_⟩⟩
  · exact State.advance_setVThenFlag_spec flagByte_noBorrow_toNat fun h => by rw [h, byte_sub_toNat]
  · exact State.advance_setVThenFlag_spec flagByte_noBorrow_toNat fun h => by rw [h, byte_sub_toNat]

/-- Settles O24: a shift of V[x] and then the bit it moves out are written
(`State.advance_setVThenFlag_spec`), neither of which V[y] enters. -/
theorem shiftsMoveABitIntoTheFlag : Obligations.ShiftsMoveABitIntoTheFlag := by
  unfold Obligations.ShiftsMoveABitIntoTheFlag
  intro s x y
  refine ⟨decode_encode (.shr x y), decode_encode (.shl x y), ⟨_, rfl, ?_⟩, ⟨_, rfl, ?_⟩⟩
  · exact State.advance_setVThenFlag_spec flagByte_bitOutRight_toNat fun h => by
      rw [h, byte_shiftRight_one_toNat]
  · exact State.advance_setVThenFlag_spec flagByte_bitOutLeft_toNat fun h => by
      rw [h, byte_shiftLeft_one_toNat]

/-- Settles O19: each writes one register (`State.advance_setV_spec`), with nn or the V[y] before the
write. -/
theorem loadsSetTheRegister : Obligations.LoadsSetTheRegister := by
  unfold Obligations.LoadsSetTheRegister
  intro s x y nn
  exact ⟨decode_encode (.ldImm x nn), decode_encode (.ldReg x y), ⟨_, rfl, State.advance_setV_spec⟩,
    ⟨_, rfl, State.advance_setV_spec⟩⟩

/-- Settles O20: the sum is the one register write (`State.advance_setV_spec`), so VF changes only as
V[x]. -/
theorem addImmediateWrapsWithoutFlag : Obligations.AddImmediateWrapsWithoutFlag := by
  unfold Obligations.AddImmediateWrapsWithoutFlag
  intro s x nn
  obtain ⟨hresult, hframe⟩ := State.advance_setV_spec (s := s) (x := x) (b := s.getV x + nn)
  exact ⟨decode_encode (.addImm x nn), _, rfl, by rw [hresult, BitVec.toNat_add], hframe⟩

end Sys2Proof.Machine
end

/-! ### The index register: the addresses written to it, and the write of it after the fetch's advance
(43_index_memory.md R201, R203) -/

section
namespace Sys2Proof.Machine

/-- The last glyph begins at 0x050 + 5 * 15, so the address does not wrap. -/
theorem glyphAddress_toNat (v : Byte) : (glyphAddress v).toNat = 0x050 + 5 * (v.toNat % 16) := by
  rw [glyphAddress, fontBase, BitVec.toNat_ofNat, Nat.mod_eq_of_lt (by omega)]

section
variable {s : State} {w : Word}

theorem State.sameExcept_advance_setI : SameExcept [.pc, .I] s (s.advance.setI w) := by
  intro p hp
  cases p with
  | pc | I => simp at hp
  | mem | V => exact fun _ => rfl
  | stack | sp | DT | ST | disp | keys | run | keyEdge | cfg | sched | draws | outputs => rfl

/-- A word written to I: it is I, and nothing but I and the pc changes. The word's value is said in the
caller's terms. -/
theorem State.advance_setI_spec {n : Nat} (hw : w.toNat = n) :
    (s.advance.setI w).I.toNat = n ∧ (s.advance.setI w).pc = s.pc + 2 ∧
      SameExcept [.pc, .I] s (s.advance.setI w) :=
  ⟨hw, rfl, sameExcept_advance_setI⟩

end

/-- Settles O27: the outcome is a write of I (`State.advance_setI_spec`) by the address nnn. -/
theorem loadIndexSetsI : Obligations.LoadIndexSetsI := by
  unfold Obligations.LoadIndexSetsI
  intro s nnn
  exact ⟨decode_encode (.ldI nnn), _, rfl, State.advance_setI_spec (address_toNat nnn)⟩

/-- Settles O29: the outcome is a write of I (`State.advance_setI_spec`) by the glyph's address
(`glyphAddress_toNat`). -/
theorem fontAddressOfTheLowNibble : Obligations.FontAddressOfTheLowNibble := by
  unfold Obligations.FontAddressOfTheLowNibble
  intro s x
  exact ⟨decode_encode (.ldF x), _, rfl, State.advance_setI_spec (glyphAddress_toNat (s.getV x))⟩

end Sys2Proof.Machine
end

/-! ### The display: the clear display's pixels, and the write of a display after the fetch's advance
(44_display.md R231) -/

section
namespace Sys2Proof.Machine

theorem Display.get_clear (r : Fin 32) (c : Fin 64) : Display.get Display.clear r c = false := by
  simp [Display.get, Display.clear]

theorem State.sameExcept_advance_setDisp {s : State} (d : Display) :
    SameExcept [.pc, .disp] s (s.advance.setDisp d) := by
  intro p hp
  cases p with
  | pc | disp => simp at hp
  | mem | V => exact fun _ => rfl
  | I | stack | sp | DT | ST | keys | run | keyEdge | cfg | sched | draws | outputs => rfl

/-- Settles O34: the outcome is a write of the display (`State.sameExcept_advance_setDisp`) by the one
that has no pixel on (`Display.get_clear`). -/
theorem clearTurnsEveryPixelOff : Obligations.ClearTurnsEveryPixelOff := by
  unfold Obligations.ClearTurnsEveryPixelOff
  intro s
  exact ⟨decode_encode .cls, s.advance.setDisp Display.clear, rfl, Display.get_clear, rfl,
    State.sameExcept_advance_setDisp _⟩

end Sys2Proof.Machine
end

/-! ### The timers: their decrement as a number, the tone, and the write of a timer after the fetch's
advance (45_keypad_timer_ops.md R266 to R268, 60_exceptions.md R321, R334) -/

section
namespace Sys2Proof.Machine

/-- The decrement is that of the naturals, which stops at 0 too. -/
theorem countDown_toNat (b : Byte) : (countDown b).toNat = b.toNat - 1 := by
  unfold countDown
  split
  · next hpos => exact BitVec.toNat_sub_of_le (y := 1) hpos
  · next hzero => omega

section
variable {s : State} {b : Byte}

theorem State.tick_of_running (h : s.run = .running) : s.tick = s.tickTimers := by
  simp [State.tick, h]

theorem State.soundActive_iff : s.soundActive = true ↔ s.ST ≠ 0 := by
  have hzero : s.ST.toNat = 0 ↔ s.ST = 0 := BitVec.toNat_inj (y := 0)
  rw [State.soundActive, decide_eq_true_iff, gt_iff_lt, Nat.pos_iff_ne_zero, ne_eq, hzero]

theorem State.sameExcept_advance_setDT : SameExcept [.pc, .DT] s (s.advance.setDT b) := by
  intro p hp
  cases p with
  | pc | DT => simp at hp
  | mem | V => exact fun _ => rfl
  | I | stack | sp | ST | disp | keys | run | keyEdge | cfg | sched | draws | outputs => rfl

theorem State.sameExcept_advance_setST : SameExcept [.pc, .ST] s (s.advance.setST b) := by
  intro p hp
  cases p with
  | pc | ST => simp at hp
  | mem | V => exact fun _ => rfl
  | I | stack | sp | DT | disp | keys | run | keyEdge | cfg | sched | draws | outputs => rfl

/-- The tick after a write of DT takes the written value down by one. -/
theorem State.tick_advance_setDT_toNat (h : s.run = .running) :
    (s.advance.setDT b).tick.DT.toNat = b.toNat - 1 := by
  rw [tick_of_running (by simpa using h), tickTimers_DT, setDT_DT, countDown_toNat]

end

/-- Settles O40: DT is written to one register (`State.advance_setV_spec`). -/
theorem readTimerGivesDT : Obligations.ReadTimerGivesDT := by
  unfold Obligations.ReadTimerGivesDT
  intro s x
  exact ⟨decode_encode (.ldVxDT x), _, rfl, State.advance_setV_spec⟩

/-- Settles O41: each outcome is a write of one timer (`State.sameExcept_advance_setDT`,
`State.sameExcept_advance_setST`), which the next tick takes down (`State.tick_advance_setDT_toNat`) or
which turns the tone on unless it is 0 (`State.soundActive_iff`). -/
theorem setTimersFromTheRegister : Obligations.SetTimersFromTheRegister := by
  unfold Obligations.SetTimersFromTheRegister
  intro s x
  refine ⟨decode_encode (.ldDTVx x), decode_encode (.ldSTVx x), ⟨s.advance.setDT (s.getV x), rfl, ?_⟩,
    ⟨s.advance.setST (s.getV x), rfl, ?_⟩⟩
  · exact ⟨rfl, rfl, State.tick_advance_setDT_toNat, State.sameExcept_advance_setDT⟩
  · exact ⟨rfl, rfl, State.soundActive_iff, State.sameExcept_advance_setST⟩

end Sys2Proof.Machine
end

/-! ### The decoder on words and bytes, and the words that match no row (30_encoding.md R82 to R87) -/

section
namespace Sys2Proof

/-- Settles O1: the word by `decode_encode`, and its two bytes make the word again. -/
theorem decodeOfEncodeIsTheInstruction : Obligations.DecodeOfEncodeIsTheInstruction := by
  unfold Obligations.DecodeOfEncodeIsTheInstruction
  intro i
  refine ⟨decode_encode i, fun rest => ?_⟩
  rw [decodeBytes, Word.ofBytes_hi_lo, decode_encode]

section
variable {w : Word}

/-! ### The unknown words of each family with a sub-selector -/

theorem decodeFamily0_eq_unknown_iff :
    decodeFamily0 w = .unknown w ↔ w ≠ 0x00E0 ∧ w ≠ 0x00EE := by
  unfold decodeFamily0
  split
  · next h => simp [h]
  · split
    · next h => simp [h]
    · next h0 hE => exact iff_of_true rfl ⟨h0, hE⟩

theorem decodeFamily8_eq_unknown_iff :
    decodeFamily8 w = .unknown w ↔ w.n ∈ [0x8, 0x9, 0xA, 0xB, 0xC, 0xD, 0xF] := by
  have hlt := w.n.isLt
  unfold decodeFamily8
  split
  case h_10 =>
    simp only [imp_false] at *
    simp [← BitVec.toNat_inj]
    omega
  all_goals next hn => simp [← BitVec.toNat_inj, hn]

theorem decodeFamilyE_eq_unknown_iff :
    decodeFamilyE w = .unknown w ↔ w.nn ∉ [0x9E, 0xA1] := by
  unfold decodeFamilyE
  split
  case h_3 h9E hA1 => simpa [← BitVec.toNat_inj] using ⟨h9E, hA1⟩
  all_goals next hnn => simp [← BitVec.toNat_inj, hnn]

theorem decodeFamilyF_eq_unknown_iff :
    decodeFamilyF w = .unknown w ↔
      w.nn ∉ [0x07, 0x0A, 0x15, 0x18, 0x1E, 0x29, 0x33, 0x55, 0x65] := by
  unfold decodeFamilyF
  split
  case h_10 => simp_all [← BitVec.toNat_inj]
  all_goals next hnn => simp [← BitVec.toNat_inj, hnn]

end

/-- Settles O3: of the families 0 to F (the cases h_1 to h_16), six have words that match no row, which
the lemma of each family lists; 5 and 9 have the one row n = 0. -/
theorem unknownWordsAreThoseListed : Obligations.UnknownWordsAreThoseListed := by
  unfold Obligations.UnknownWordsAreThoseListed
  intro w
  have hlt := w.op.isLt
  unfold decode
  split
  case h_1 hop =>
    simp [decodeFamily0_eq_unknown_iff, BitVec.eq_of_toNat_eq (y := 0x0) hop]
  case h_6 hop =>
    by_cases hn : w.n = 0 <;> simp [hn, BitVec.eq_of_toNat_eq (y := 0x5) hop]
  case h_9 hop =>
    simp [decodeFamily8_eq_unknown_iff, BitVec.eq_of_toNat_eq (y := 0x8) hop]
  case h_10 hop =>
    by_cases hn : w.n = 0 <;> simp [hn, BitVec.eq_of_toNat_eq (y := 0x9) hop]
  case h_15 hop =>
    simp [decodeFamilyE_eq_unknown_iff, BitVec.eq_of_toNat_eq (y := 0xE) hop]
  case h_16 hop =>
    simp [decodeFamilyF_eq_unknown_iff, BitVec.eq_of_toNat_eq (y := 0xF) hop]
  case h_17 =>
    simp only [imp_false] at *
    omega
  all_goals next hop => simp [← BitVec.toNat_inj, hop]

/-- Settles O4, by evaluation of the decoder. -/
theorem listedWordsDecode : Obligations.ListedWordsDecode := by
  unfold Obligations.ListedWordsDecode
  decide

end Sys2Proof
end

/-! ### Memory: what a read gives after a write, after a run of writes and after a load, and the form as
a determined one (20_memory.md R60, R67, R76) -/

section
namespace Sys2Proof.Machine

section
variable {m m' : Memory} {a b k : Nat} {v u : Byte}

/-- The cells after the first of a canonical memory are canonical and stand above it. -/
theorem Memory.wf_cons (h : Memory.wf ((k, u) :: m)) :
    (∀ c ∈ m, k < c.1) ∧ Memory.wf m ∧ k ≤ addrMax ∧ u ≠ Memory.unlisted k := by
  obtain ⟨hsorted, hcells⟩ := h
  obtain ⟨hlt, hsorted⟩ := List.pairwise_cons.1 hsorted
  exact ⟨hlt, ⟨hsorted, fun c hc => hcells c (.tail _ hc)⟩, hcells _ List.mem_cons_self⟩

/-- A read after a write (20_memory.md R76). -/
theorem Memory.read_write (hm : Memory.wf m) :
    Memory.read (Memory.write m a v) b = if a = b then v else Memory.read m b := by
  induction m with
  | nil => exact Memory.read_cons [] a b v nofun
  | cons c m ih =>
    obtain ⟨k, u⟩ := c
    obtain ⟨hlt, hwf, -⟩ := Memory.wf_cons hm
    unfold Memory.write
    split
    · next hak =>
      refine Memory.read_cons _ a b v fun c hc => ?_
      rcases List.mem_cons.1 hc with rfl | hc
      · exact hak
      · exact hak.trans (hlt c hc)
    · split
      · next hak =>
        subst hak
        rw [Memory.read_cons m a b v hlt, Memory.read]
        split <;> rfl
      · next hak =>
        rw [Memory.read, Memory.read, ih hwf]
        split
        · next hkb => rw [if_neg (hkb ▸ hak)]
        · rfl

/-- A read after bytes written at ascending addresses in range (20_memory.md R64, R76). -/
theorem Memory.read_writeBytes (bs : List Byte) (hm : Memory.wf m) (ha : a + bs.length ≤ addrMax + 1) :
    Memory.read (Memory.writeBytes m a bs) b =
      if h : a ≤ b ∧ b < a + bs.length then bs[b - a] else Memory.read m b := by
  induction bs generalizing m a with
  | nil => rw [dif_neg (by simp)]; rfl
  | cons v bs ih =>
    rw [List.length_cons] at ha
    rw [Memory.writeBytes, ih (Memory.write_wf m a v (by omega) hm) (by omega), Memory.read_write hm]
    simp only [List.length_cons]
    by_cases htail : a + 1 ≤ b ∧ b < a + 1 + bs.length
    · have hidx : b - a = (b - (a + 1)) + 1 := by omega
      rw [dif_pos htail, dif_pos (by omega)]
      simp [hidx]
    · rw [dif_neg htail]
      by_cases hab : a = b
      · subst hab; simp
      · rw [if_neg hab, dif_neg (by omega)]

/-- An address that no cell lists reads as unlisted. -/
theorem Memory.read_of_not_listed (h : ∀ c ∈ m, c.1 ≠ a) : Memory.read m a = Memory.unlisted a := by
  induction m with
  | nil => rfl
  | cons c m ih =>
    rw [Memory.read, if_neg (h c List.mem_cons_self)]
    exact ih fun d hd => h d (.tail _ hd)

/-- Cells put behind are read where no cell in front lists the address. -/
theorem Memory.read_append_of_not_listed (h : ∀ c ∈ m, c.1 ≠ a) :
    Memory.read (m ++ m') a = Memory.read m' a := by
  induction m with
  | nil => rfl
  | cons c m ih =>
    rw [List.cons_append, Memory.read, if_neg (h c List.mem_cons_self)]
    exact ih fun d hd => h d (.tail _ hd)

/-- Below the cells put behind, and below the bound of a filter, the cells in front are read. -/
theorem Memory.read_filter_append_of_lt {p : Nat} (ha : a < p) (h : ∀ c ∈ m', p ≤ c.1) :
    Memory.read (m.filter (fun c => decide (c.1 < p)) ++ m') a = Memory.read m a := by
  induction m with
  | nil => exact Memory.read_of_not_listed fun c hc => (ha.trans_le (h c hc)).ne'
  | cons c m ih =>
    by_cases hc : c.1 < p
    · rw [List.filter_cons_of_pos (by simpa using hc), List.cons_append, Memory.read, ih, Memory.read]
    · rw [List.filter_cons_of_neg (by simpa using hc), ih, Memory.read, if_neg (by omega)]

/-- A read after a load: the image from 0x200 on and what an unlisted address reads after it, and below
0x200 what was there (60_exceptions.md R331). -/
theorem Memory.read_load (rom : List Byte) :
    Memory.read (Memory.load m rom) a =
      if h : 0x200 ≤ a ∧ a < 0x200 + rom.length then rom[a - 0x200]
      else if a < 0x200 then Memory.read m a else Memory.unlisted a := by
  unfold Memory.load programBase
  by_cases ha : a < 0x200
  · rw [dif_neg (by omega), if_pos ha]
    exact Memory.read_filter_append_of_lt ha fun c hc => (Memory.mem_ofBytes _ _ _ hc).1
  · rw [if_neg ha, Memory.read_append_of_not_listed, Memory.read_ofBytes]
    · intro c hc
      have hlt := (List.mem_filter.1 hc).2
      simp only [decide_eq_true_eq] at hlt
      omega

/-- The first cell of a canonical memory holds what reads otherwise in a memory that has no cell so low. -/
theorem Memory.read_ne_of_lt (hm : Memory.wf ((k, u) :: m)) (h : ∀ c ∈ m', k < c.1) :
    Memory.read ((k, u) :: m) k ≠ Memory.read m' k := by
  obtain ⟨-, -, -, hu⟩ := Memory.wf_cons hm
  rw [Memory.read_below m' k h, Memory.read, if_pos rfl]
  exact hu

theorem Memory.read_ne_of_head_lt {k' : Nat} {u' : Byte} (hm : Memory.wf ((k, u) :: m))
    (hm' : Memory.wf ((k', u') :: m')) (hk : k < k') :
    Memory.read ((k, u) :: m) k ≠ Memory.read ((k', u') :: m') k := by
  obtain ⟨hlt', -⟩ := Memory.wf_cons hm'
  exact Memory.read_ne_of_lt hm (List.forall_mem_cons.2 ⟨hk, fun c hc => hk.trans (hlt' c hc)⟩)

/-- Settles O11: of two canonical memories, the one whose first cell stands lower, or stands where the
other has none, reads otherwise there (`Memory.read_ne_of_lt`), so the first cells agree, and then the
rest reads the same. -/
theorem memoryIsDeterminedByItsBytes : Obligations.MemoryIsDeterminedByItsBytes := by
  unfold Obligations.MemoryIsDeterminedByItsBytes
  intro m m' hm hm' hread
  induction m generalizing m' with
  | nil =>
    cases m' with
    | nil => rfl
    | cons c' m' =>
      obtain ⟨-, -, hc', -⟩ := Memory.wf_cons hm'
      exact absurd (hread _ hc').symm (Memory.read_ne_of_lt hm' nofun)
  | cons c m ih =>
    obtain ⟨hlt, hwf, hc, -⟩ := Memory.wf_cons hm
    cases m' with
    | nil => exact absurd (hread _ hc) (Memory.read_ne_of_lt hm nofun)
    | cons c' m' =>
      obtain ⟨hlt', hwf', hc', -⟩ := Memory.wf_cons hm'
      obtain ⟨k, u⟩ := c
      obtain ⟨k', u'⟩ := c'
      rcases lt_trichotomy k k' with hk | rfl | hk
      · exact absurd (hread k hc) (Memory.read_ne_of_head_lt hm hm' hk)
      · have hu : u = u' := by simpa [Memory.read] using hread k hc
        rw [hu, ih m' hwf hwf' fun a ha => ?_]
        by_cases hka : k = a
        · subst hka
          rw [Memory.read_below m k hlt, Memory.read_below m' k hlt']
        · simpa [Memory.read, hka] using hread a ha
      · exact absurd (hread k' hc').symm (Memory.read_ne_of_head_lt hm' hm hk)

/-- Settles O10, by `Memory.read_write` at the address written and at another. -/
theorem readAfterWrite : Obligations.ReadAfterWrite := by
  unfold Obligations.ReadAfterWrite
  intro m a v hm ha
  refine ⟨?_, fun b hb => ?_⟩
  · rw [Memory.read_write hm, if_pos rfl]
  · rw [Memory.read_write hm, if_neg hb.symm]

end

end Sys2Proof.Machine
end

/-! ### Frames: what each update leaves, and frames one after the other (10_state.md R48) -/

section
namespace Sys2Proof.Machine

section
variable {s t u : State} {l l' : List Piece}

theorem Piece.same_trans {p : Piece} (h : p.same s t) (h' : p.same t u) : p.same s u := by
  cases p with
  | mem | V => exact fun a => (h' a).trans (h a)
  | I | pc | stack | sp | DT | ST | disp | keys | run | keyEdge | cfg | sched | draws | outputs =>
    exact Eq.trans h' h

theorem SameExcept.trans (h : SameExcept l s t) (h' : SameExcept l' t u) :
    SameExcept (l ++ l') s u := by
  intro p hp
  rw [List.mem_append, not_or] at hp
  exact Piece.same_trans (h p hp.1) (h' p hp.2)

end

section
variable (s : State)

theorem State.sameExcept_writeBytes (a : Nat) (bs : List Byte) :
    SameExcept [.mem] s (s.writeBytes a bs) := by
  intro p hp
  cases p with
  | mem => simp at hp
  | V => exact fun _ => rfl
  | I | pc | stack | sp | DT | ST | disp | keys | run | keyEdge | cfg | sched | draws | outputs => rfl

theorem State.sameExcept_setDisp (d : Display) : SameExcept [.disp] s (s.setDisp d) := by
  intro p hp
  cases p with
  | disp => simp at hp
  | mem | V => exact fun _ => rfl
  | I | pc | stack | sp | DT | ST | keys | run | keyEdge | cfg | sched | draws | outputs => rfl

theorem State.sameExcept_setI (w : Word) : SameExcept [.I] s (s.setI w) := by
  intro p hp
  cases p with
  | I => simp at hp
  | mem | V => exact fun _ => rfl
  | pc | stack | sp | DT | ST | disp | keys | run | keyEdge | cfg | sched | draws | outputs => rfl

theorem State.sameExcept_countDraw : SameExcept [.draws] s s.countDraw := by
  intro p hp
  cases p with
  | draws => simp at hp
  | mem | V => exact fun _ => rfl
  | I | pc | stack | sp | DT | ST | disp | keys | run | keyEdge | cfg | sched | outputs => rfl

theorem State.sameExcept_beginWait (x : Digit) : SameExcept [.run, .keyEdge] s (s.beginWait x) := by
  intro p hp
  cases p with
  | run | keyEdge => simp at hp
  | mem | V => exact fun _ => rfl
  | I | pc | stack | sp | DT | ST | disp | keys | cfg | sched | draws | outputs => rfl

theorem State.sameExcept_setStack (stack : Vector Word 16) (sp : Fin 17) :
    SameExcept [.stack, .sp] s { s with stack := stack, sp := sp } := by
  intro p hp
  cases p with
  | stack | sp => simp at hp
  | mem | V => exact fun _ => rfl
  | I | pc | DT | ST | disp | keys | run | keyEdge | cfg | sched | draws | outputs => rfl

theorem State.sameExcept_setSp (sp : Fin 17) : SameExcept [.sp] s { s with sp := sp } := by
  intro p hp
  cases p with
  | sp => simp at hp
  | mem | V => exact fun _ => rfl
  | I | pc | stack | DT | ST | disp | keys | run | keyEdge | cfg | sched | draws | outputs => rfl

theorem State.sameExcept_advance_skipIf (c : Bool) : SameExcept [.pc] s (s.advance.skipIf c) :=
  (advance_skipIf_spec (p := c = true) (q := c = false) id id).1

end

end Sys2Proof.Machine
end

/-! ### The outcomes of the instructions that can fault, with a listed cause and with none
(60_exceptions.md R300) -/

section
namespace Sys2Proof.Machine

section
variable {s : State}

theorem exec_ret_of_pos (h : 0 < s.sp.val) :
    exec .ret s = .next
      ({ s.advance with sp := ⟨s.sp.val - 1, by omega⟩ }.setPc (s.stack[s.sp.val - 1]'(by omega))) := by
  change execRet s = _
  rw [execRet, State.pop_of_pos s.advance h]
  rfl

theorem exec_ret_of_empty (h : s.sp.val = 0) :
    exec .ret s = .next (s.raiseFor .ret .stackUnderflow) := by
  change execRet s = _
  rw [execRet, State.pop_of_empty s.advance h]

theorem exec_call_of_lt (nnn : Addr12) (h : s.sp.val < 16) :
    exec (.call nnn) s = .next
      ({ s.advance with
          stack := s.stack.set s.sp.val (s.pc + 2) h
          sp := ⟨s.sp.val + 1, by omega⟩ }.setPc (address nnn)) := by
  change execCall nnn s = _
  rw [execCall, State.push_of_lt s.advance _ h]
  rfl

theorem exec_call_of_full (nnn : Addr12) (h : s.sp.val = 16) :
    exec (.call nnn) s = .next (s.raiseFor (.call nnn) .stackOverflow) := by
  change execCall nnn s = _
  rw [execCall, State.push_of_full s.advance _ h]

theorem State.skipOnKey_of_fault (i : Instr) (x : Digit) (pressed : Bool)
    (hv : (s.getV x).toNat > 0xF) (hp : s.cfg.keyIndexPolicy = .fault) :
    s.skipOnKey i x pressed = s.raiseFor i (.keyIndexOutOfRange (s.getV x)) := by
  rw [State.skipOnKey, keyIndex_of_gt _ _ hv, hp]

theorem State.skipOnKey_of_key (i : Instr) (x : Digit) (pressed : Bool)
    (h : ¬ ((s.getV x).toNat > 0xF ∧ s.cfg.keyIndexPolicy = .fault)) :
    s.skipOnKey i x pressed = s.advance.skipIf (s.keyDown ((s.getV x).setWidth 4) == pressed) := by
  rcases s.skipOnKey_cases i x pressed with ⟨hp, hv, -⟩ | hskip
  · exact absurd ⟨hv, hp⟩ h
  · exact hskip

end

section
variable {s : State} {x : Digit} {nnn : Addr12}

theorem faultOf_ret_eq_none_iff : faultOf .ret s = none ↔ 0 < s.sp.val := by
  rw [faultOf, ite_eq_right_iff, Nat.pos_iff_ne_zero]
  exact forall_congr' fun _ => iff_of_false nofun id

theorem faultOf_call_eq_none_iff : faultOf (.call nnn) s = none ↔ s.sp.val < 16 := by
  have hle := s.sp.isLt
  simp only [faultOf, ite_eq_right_iff, reduceCtorEq, imp_false]
  omega

theorem exec_skp_of_no_fault (h : faultOf (.skp x) s = none) :
    exec (.skp x) s = .next (s.advance.skipIf (s.keyDown ((s.getV x).setWidth 4) == true)) := by
  rw [faultOf, ite_eq_right_iff] at h
  exact congrArg Host.Outcome.next (State.skipOnKey_of_key _ x _ fun hv => nomatch h hv)

theorem exec_sknp_of_no_fault (h : faultOf (.sknp x) s = none) :
    exec (.sknp x) s = .next (s.advance.skipIf (s.keyDown ((s.getV x).setWidth 4) == false)) := by
  rw [faultOf, ite_eq_right_iff] at h
  exact congrArg Host.Outcome.next (State.skipOnKey_of_key _ x _ fun hv => nomatch h hv)

end

/-- Settles O54: each instruction with a listed cause checks exactly that before it writes anything. -/
theorem listedFaultsHaltPrecisely : Obligations.ListedFaultsHaltPrecisely := by
  unfold Obligations.ListedFaultsHaltPrecisely
  intro i s c h
  change exec i s = .next (s.raiseFor i c)
  cases i with
  | ret =>
    rw [faultOf, Option.ite_none_right_eq_some] at h
    obtain ⟨hsp, ⟨⟩⟩ := h
    exact exec_ret_of_empty hsp
  | call nnn =>
    rw [faultOf, Option.ite_none_right_eq_some] at h
    obtain ⟨hsp, ⟨⟩⟩ := h
    exact exec_call_of_full nnn hsp
  | drw x y n =>
    rw [faultOf, Option.ite_none_right_eq_some] at h
    obtain ⟨⟨hn, hgt⟩, ⟨⟩⟩ := h
    have hpos : 0 < n.toNat := Nat.pos_of_ne_zero fun hzero => hn (BitVec.eq_of_toNat_eq hzero)
    rw [Nat.add_sub_assoc hpos] at hgt ⊢
    exact if_neg (by rw [State.spanInRange_iff]; omega)
  | ldB x | stRegs x | ldRegs x =>
    rw [faultOf, Option.ite_none_right_eq_some] at h
    obtain ⟨hgt, ⟨⟩⟩ := h
    exact if_neg (by rw [State.spanInRange_iff]; omega)
  | skp x | sknp x =>
    rw [faultOf, Option.ite_none_right_eq_some] at h
    obtain ⟨⟨hv, hp⟩, ⟨⟩⟩ := h
    exact congrArg Host.Outcome.next (State.skipOnKey_of_fault _ x _ hv hp)
  | cls | jp _ | seImm _ _ | sneImm _ _ | seReg _ _ | sneReg _ _ | ldImm _ _ | addImm _ _ | ldReg _ _
  | orReg _ _ | andReg _ _ | xorReg _ _ | addReg _ _ | subReg _ _ | shr _ _ | subn _ _ | shl _ _
  | ldI _ | jpV0 _ | rnd _ _ | ldVxDT _ | ldVxK _ | ldDTVx _ | ldSTVx _ | addI _ | ldF _ =>
    cases h

/-- Settles O55: with no listed cause the outcome is one or more updates in turn, each with its frame,
after the fetch's advance. -/
theorem withoutAFaultOnlyTheListedPiecesChange :
    Obligations.WithoutAFaultOnlyTheListedPiecesChange := by
  unfold Obligations.WithoutAFaultOnlyTheListedPiecesChange
  intro i s h
  cases i with
  | cls => exact ⟨_, rfl, State.sameExcept_advance_setDisp _⟩
  | ret =>
    have hpos := faultOf_ret_eq_none_iff.1 h
    exact ⟨_, exec_ret_of_pos hpos, (State.sameExcept_setPc _).trans (State.sameExcept_setSp _ _)⟩
  | call nnn =>
    have hlt := faultOf_call_eq_none_iff.1 h
    exact ⟨_, exec_call_of_lt nnn hlt,
      (State.sameExcept_setPc _).trans (State.sameExcept_setStack _ _ _)⟩
  | jp | jpV0 => exact ⟨s.setPc _, rfl, State.sameExcept_setPc _⟩
  | seImm | sneImm | seReg | sneReg => exact ⟨_, rfl, s.sameExcept_advance_skipIf _⟩
  | ldImm | addImm | ldReg | orReg | andReg | xorReg | ldVxDT =>
    exact ⟨_, rfl, State.sameExcept_advance_setRegs _⟩
  | addReg | subReg | shr | subn | shl => exact ⟨_, rfl, State.sameExcept_advance_setRegs _⟩
  | ldI | addI | ldF => exact ⟨_, rfl, State.sameExcept_advance_setI⟩
  | rnd => exact ⟨_, rfl, (State.sameExcept_advance_setRegs _).trans (State.sameExcept_countDraw _)⟩
  | drw x y n =>
    have hspan := faultOf_drw_eq_none_iff.1 h
    exact ⟨_, exec_drw_of_spanInRange hspan,
      (State.sameExcept_advance_setRegs _).trans (State.sameExcept_setDisp _ _)⟩
  | skp x => exact ⟨_, exec_skp_of_no_fault h, s.sameExcept_advance_skipIf _⟩
  | sknp x => exact ⟨_, exec_sknp_of_no_fault h, s.sameExcept_advance_skipIf _⟩
  | ldVxK x =>
    exact ⟨_, rfl, (State.sameExcept_setPc (s := s) _).trans (State.sameExcept_beginWait _ x)⟩
  | ldDTVx => exact ⟨_, rfl, State.sameExcept_advance_setDT⟩
  | ldSTVx => exact ⟨_, rfl, State.sameExcept_advance_setST⟩
  | ldB x =>
    have hspan := faultOf_ldB_eq_none_iff.1 h
    exact ⟨_, exec_ldB_of_spanInRange hspan,
      (State.sameExcept_setPc _).trans (State.sameExcept_writeBytes _ _ _)⟩
  | stRegs x =>
    have hspan := faultOf_stRegs_eq_none_iff.1 h
    exact ⟨_, exec_stRegs_of_spanInRange hspan, ((State.sameExcept_setPc _).trans
      (State.sameExcept_writeBytes _ _ _)).trans (State.sameExcept_setI _ _)⟩
  | ldRegs x =>
    have hspan := faultOf_ldRegs_eq_none_iff.1 h
    exact ⟨_, exec_ldRegs_of_spanInRange hspan,
      (State.sameExcept_advance_setRegs _).trans (State.sameExcept_setI _ _)⟩

end Sys2Proof.Machine
end

/-! ### Control flow and registers: 00EE, 2nnn, the logic instructions, Cxnn, and which registers an
instruction writes (41_control_flow.md R132, R134; 42_alu.md R164 to R166, R172; 10_state.md R31) -/

section
namespace Sys2Proof.Machine

/-- Every instruction answers a next state: the fault of a listed cause, or its effect. -/
theorem exec_cases (i : Instr) (s : State) :
    (∃ c, faultOf i s = some c ∧ exec i s = .next (s.raiseFor i c)) ∨
    (faultOf i s = none ∧ ∃ t, exec i s = .next t ∧ SameExcept (mayWrite i) s t) := by
  cases h : faultOf i s with
  | some c => exact .inl ⟨c, rfl, listedFaultsHaltPrecisely i s c h⟩
  | none => exact .inr ⟨rfl, withoutAFaultOnlyTheListedPiecesChange i s h⟩

/-- Settles O12: the outcome by whether an entry is in use (`exec_ret_of_pos`, `exec_ret_of_empty`). -/
theorem returnPopsThePc : Obligations.ReturnPopsThePc := by
  unfold Obligations.ReturnPopsThePc
  intro s
  refine ⟨fun h => ⟨_, exec_ret_of_pos h, rfl, rfl, ?_⟩, exec_ret_of_empty⟩
  exact (State.sameExcept_setPc _).trans (State.sameExcept_setSp _ _)

/-- Settles O13: the outcome by whether an entry is free (`exec_call_of_lt`, `exec_call_of_full`). -/
theorem callPushesTheReturnAddress : Obligations.CallPushesTheReturnAddress := by
  unfold Obligations.CallPushesTheReturnAddress
  intro s nnn
  refine ⟨fun h => ⟨_, exec_call_of_lt nnn h, address_toNat nnn, rfl, ?_, fun j hj hne => ?_, ?_⟩,
    exec_call_of_full nnn⟩
  · exact Vector.getElem_set_self h
  · exact Vector.getElem_set_ne h hj hne.symm
  · exact (State.sameExcept_setPc _).trans (State.sameExcept_setStack _ _ _)

/-- Settles O21: the bitwise result is the one register write (`State.advance_setV_spec`). -/
theorem logicWritesOnlyItsResult : Obligations.LogicWritesOnlyItsResult := by
  unfold Obligations.LogicWritesOnlyItsResult
  intro s x y
  refine ⟨⟨_, rfl, ?_⟩, ⟨_, rfl, ?_⟩, ⟨_, rfl, ?_⟩⟩
  all_goals
    obtain ⟨hresult, hpc, hframe⟩ := State.advance_setV_spec (s := s) (x := x)
    refine ⟨hpc, fun b _ => ?_, hframe⟩
    rw [hresult]
  · exact BitVec.getLsbD_or
  · exact BitVec.getLsbD_and
  · exact BitVec.getLsbD_xor

/-- Settles O25: the masked draw is the one register write (`State.advance_setV_spec`), and the draw is
counted. -/
theorem randomByteIsMasked : Obligations.RandomByteIsMasked := by
  unfold Obligations.RandomByteIsMasked
  intro s x nn
  obtain ⟨hresult, hpc, hregs, hframe⟩ :=
    State.advance_setV_spec (s := s) (x := x) (b := nn &&& Config.rand s.draws)
  refine ⟨_, Config.rand s.draws, rfl, rfl, rfl, fun b _ => ?_, hpc, hregs,
    hframe.trans (State.sameExcept_countDraw _)⟩
  rw [State.getV_countDraw, hresult, BitVec.getLsbD_and]

/-- A register of the file Fx65 writes (43_index_memory.md R206). -/
theorem State.getElem_regsFromMemory (s : State) (x k : Digit) :
    (s.regsFromMemory x)[k.toNat]'k.isLt =
      if k.toNat ≤ x.toNat then s.readByte (s.I.toNat + k.toNat) else s.getV k := by
  simp [State.regsFromMemory, State.ea, State.getV]

/-- Settles O26: a step with a listed cause writes no register, and so does one of an instruction that
has no register among its pieces; of the others each writes V[x], or V[x] and then VF, or VF, or the
registers up to x. -/
theorem registersChangeOnlyByName : Obligations.RegistersChangeOnlyByName := by
  unfold Obligations.RegistersChangeOnlyByName
  intro i s t k hexec hne
  rcases exec_cases i s with ⟨c, -, hfault⟩ | ⟨hnone, u, hu, hframe⟩
  · cases hfault.symm.trans hexec
    exact absurd (State.getV_raiseFor s i c k) hne
  · cases hu.symm.trans hexec
    have hV : .V ∈ mayWrite i := by_contra fun hV => hne (hframe .V hV k)
    cases i with
    | ldImm x _ | addImm x _ | ldReg x _ | orReg x _ | andReg x _ | xorReg x _ | rnd x _ | ldVxDT x =>
      cases hexec
      refine .inl (beq_iff_eq.2 (by_contra fun hx => hne ?_))
      exact (State.getV_setV _ x k _).trans (if_neg hx)
    | addReg x _ | subReg x _ | shr x _ | subn x _ | shl x _ =>
      cases hexec
      refine or_iff_not_imp_left.2 fun hx => ⟨by_contra fun hVF => hne ?_, rfl⟩
      have hx : x ≠ k := fun h => hx (beq_iff_eq.2 h)
      exact (State.getV_setVThenFlag _ x k _ _).trans ((if_neg (Ne.symm hVF)).trans (if_neg hx))
    | drw x y n =>
      cases (exec_drw_of_spanInRange (faultOf_drw_eq_none_iff.1 hnone)).symm.trans hexec
      refine .inr ⟨by_contra fun hVF => hne ?_, rfl⟩
      exact (State.getV_setFlag _ _ k).trans (if_neg (Ne.symm hVF))
    | ldRegs x =>
      cases (exec_ldRegs_of_spanInRange (faultOf_ldRegs_eq_none_iff.1 hnone)).symm.trans hexec
      refine .inl (decide_eq_true (by_contra fun hk => hne ?_))
      rw [State.getV_setI, State.getV_setRegs, State.getElem_regsFromMemory, if_neg hk]
    | cls | ret | jp _ | call _ | seImm _ _ | sneImm _ _ | seReg _ _ | sneReg _ _ | ldI _ | jpV0 _
    | skp _ | sknp _ | ldVxK _ | ldDTVx _ | ldSTVx _ | addI _ | ldF _ | ldB _ | stRegs _ =>
      simp [mayWrite] at hV

end Sys2Proof.Machine
end

/-! ### The index register and the memory at I: Fx1E, Fx33, Fx55, Fx65 (43_index_memory.md R202, R204 to
R206) -/

section
namespace Sys2Proof.Machine

theorem indexSum_mod65536_toNat (i : Word) (v : Byte) :
    (indexSum .mod65536 i v).toNat = (i.toNat + v.toNat) % 65536 := by
  rw [indexSum, BitVec.toNat_add, extend_toNat]

theorem indexSum_mod4096_toNat (i : Word) (v : Byte) :
    (indexSum .mod4096 i v).toNat = (i.toNat + v.toNat) % 4096 := by
  rw [indexSum, BitVec.toNat_ofNat, Nat.mod_eq_of_lt (by omega)]

theorem indexAfter_true_toNat (i : Word) (x : Digit) :
    (indexAfter true i x).toNat = (i.toNat + x.toNat + 1) % 65536 :=
  BitVec.toNat_ofNat _ 16

section
variable {s : State} {a : Nat} {bs : List Byte}

/-! ### Bytes written in range, in a memory in canonical form -/

theorem State.readByte_writeBytes (hm : Memory.wf s.mem) (ha : a + bs.length ≤ 0x1000) (b : Nat) :
    (s.writeBytes a bs).readByte b =
      if h : a ≤ b ∧ b < a + bs.length then bs[b - a] else s.readByte b :=
  Memory.read_writeBytes bs hm ha

theorem State.readByte_writeBytes_getElem (hm : Memory.wf s.mem) (ha : a + bs.length ≤ 0x1000)
    {j : Nat} (hj : j < bs.length) : (s.writeBytes a bs).readByte (a + j) = bs[j] := by
  rw [State.readByte_writeBytes hm ha, dif_pos (by omega)]
  simp

theorem State.sameBytesOutside_writeBytes (hm : Memory.wf s.mem) (ha : a + bs.length ≤ 0x1000) :
    SameBytesOutside a bs.length s (s.writeBytes a bs) := by
  intro b hb
  rw [State.readByte_writeBytes hm ha, dif_neg (by omega)]

end

/-- Settles O28: the outcome is a write of I (`State.advance_setI_spec`) by the sum as `FX1E_WRAP`
reduces it. -/
theorem addToIndexWrapsAsConfigured : Obligations.AddToIndexWrapsAsConfigured := by
  unfold Obligations.AddToIndexWrapsAsConfigured
  intro s x
  refine ⟨_, rfl, State.advance_setI_spec ?_⟩
  cases s.cfg.fx1eWrap with
  | mod65536 => exact indexSum_mod65536_toNat s.I (s.getV x)
  | mod4096 => exact indexSum_mod4096_toNat s.I (s.getV x)

/-- Settles O30: the outcome is a write of the three digits at I. -/
theorem bcdStoresTheDigits : Obligations.BcdStoresTheDigits := by
  unfold Obligations.BcdStoresTheDigits
  intro s x hm hI
  have hspan : s.spanInRange 3 = true := (s.spanInRange_iff 3).2 (.inr hI)
  have ha : s.I.toNat + (bcdDigits (s.getV x)).length ≤ 0x1000 := Nat.succ_le_succ hI
  have hv := (s.getV x).isLt
  have hdigit {j n : Nat} (hj : j < 3) (hn : n < 256)
      (hd : (bcdDigits (s.getV x))[j]'hj = BitVec.ofNat 8 n) :
      ((s.advance.writeBytes s.I.toNat (bcdDigits (s.getV x))).readByte (s.I.toNat + j)).toNat = n := by
    rw [State.readByte_writeBytes_getElem (s := s.advance) hm ha hj, hd, BitVec.toNat_ofNat,
      Nat.mod_eq_of_lt hn]
  exact ⟨_, exec_ldB_of_spanInRange hspan, hdigit (j := 0) (by decide) (by omega) rfl,
    hdigit (by decide) (by omega) rfl, hdigit (by decide) (by omega) rfl,
    State.sameBytesOutside_writeBytes hm ha, rfl,
    (State.sameExcept_setPc _).trans (State.sameExcept_writeBytes _ _ _)⟩

/-- Settles O31: the outcome is a write of the registers to x at I, and then of I. -/
theorem storeRegistersWritesThem : Obligations.StoreRegistersWritesThem := by
  unfold Obligations.StoreRegistersWritesThem
  intro s x hm hI
  have hspan : s.spanInRange (x.toNat + 1) = true := (s.spanInRange_iff _).2 (.inr hI)
  have hlen := s.regsUpTo_length x
  have ha : s.I.toNat + (s.regsUpTo x).length ≤ 0x1000 := by omega
  refine ⟨_, exec_stRegs_of_spanInRange hspan, fun k hk => ?_, ?_, fun hinc => ?_, fun hinc => ?_, rfl,
    ((State.sameExcept_setPc _).trans (State.sameExcept_writeBytes _ _ _)).trans
      (State.sameExcept_setI _ _)⟩
  · have hk : k.toNat < (s.regsUpTo x).length := by omega
    rw [State.readByte_setI, State.readByte_writeBytes_getElem (s := s.advance) hm ha hk,
      State.getElem_regsUpTo]
    rfl
  · rw [← hlen]
    exact State.sameBytesOutside_writeBytes hm ha
  · rw [hinc]; rfl
  · rw [hinc]; exact indexAfter_true_toNat s.I x

/-- Settles O32: the outcome is a write of the register file (`State.getElem_regsFromMemory`), and then
of I. -/
theorem loadRegistersReadsThem : Obligations.LoadRegistersReadsThem := by
  unfold Obligations.LoadRegistersReadsThem
  intro s x hI
  have hspan : s.spanInRange (x.toNat + 1) = true := (s.spanInRange_iff _).2 (.inr hI)
  refine ⟨_, exec_ldRegs_of_spanInRange hspan, fun k hk => ?_, fun k hk => ?_, fun hinc => ?_,
    fun hinc => ?_, rfl, (State.sameExcept_advance_setRegs _).trans (State.sameExcept_setI _ _)⟩
  · exact (s.getElem_regsFromMemory x k).trans (if_pos hk)
  · exact (s.getElem_regsFromMemory x k).trans (if_neg (Nat.not_le_of_lt hk))
  · rw [hinc]; rfl
  · rw [hinc]; exact indexAfter_true_toNat s.I x

/-- Settles O33: the load reads the bytes at the address the store wrote them to. -/
theorem loadRestoresWhatStoreSaved : Obligations.LoadRestoresWhatStoreSaved := by
  unfold Obligations.LoadRestoresWhatStoreSaved
  intro s t u v x hm hI hstore hmem hindex hload k hk
  obtain ⟨t', ht', hstored, -⟩ := storeRegistersWritesThem s x hm hI
  obtain ⟨v', hv', hloaded, -⟩ := loadRegistersReadsThem u x (by rwa [hindex])
  cases ht'.symm.trans hstore
  cases hv'.symm.trans hload
  calc v.getV k
    _ = u.readByte (u.I.toNat + k.toNat) := hloaded k hk
    _ = t.readByte (s.I.toNat + k.toNat) := by rw [State.readByte_congr hmem, hindex]
    _ = s.getV k := hstored k hk

end Sys2Proof.Machine
end

/-! ### Keys: the skips of Ex9E and ExA1, and the start of a wait (45_keypad_timer_ops.md R260 to R263) -/

section
namespace Sys2Proof.Machine

section
variable {s : State} {x k : Digit}

theorem byte_setWidth_eq_digit {v : Byte} (h : v.toNat % 16 = k.toNat) : v.setWidth 4 = k :=
  BitVec.eq_of_toNat_eq ((BitVec.toNat_setWidth 4 v).trans h)

/-- A skip on the key that the low nibble of V[x] names, where the policy makes no fault of V[x]. -/
theorem State.skipOnKey_of_nibble (i : Instr) (pressed : Bool)
    (h : ¬ ((s.getV x).toNat > 0xF ∧ s.cfg.keyIndexPolicy = .fault))
    (hk : (s.getV x).toNat % 16 = k.toNat) :
    s.skipOnKey i x pressed = s.advance.skipIf (s.keyDown k == pressed) := by
  rw [State.skipOnKey_of_key i x pressed h, byte_setWidth_eq_digit hk]

end

/-- Settles O38: each is a skip (`State.advance_skipIf_spec`) on the key V[x] names. -/
theorem skipsOnAKey : Obligations.SkipsOnAKey := by
  unfold Obligations.SkipsOnAKey
  intro s x k hkey
  have hlt := k.isLt
  have hskip (i : Instr) (pressed : Bool) :
      s.skipOnKey i x pressed = s.advance.skipIf (s.keyDown k == pressed) :=
    State.skipOnKey_of_nibble i pressed (by omega) (by omega)
  refine ⟨⟨_, congrArg Host.Outcome.next (hskip _ _), ?_⟩,
    ⟨_, congrArg Host.Outcome.next (hskip _ _), ?_⟩⟩
  · exact State.advance_skipIf_spec beq_iff_eq.2 fun h => by rw [h]; rfl
  · exact State.advance_skipIf_spec beq_iff_eq.2 fun h => by rw [h]; rfl

/-- Settles O39: under `fault` both raise the value (`State.skipOnKey_of_fault`), under `low_nibble` each
is a skip (`State.skipOnKey_of_nibble`). -/
theorem keyIndexFollowsThePolicy : Obligations.KeyIndexFollowsThePolicy := by
  unfold Obligations.KeyIndexFollowsThePolicy
  intro s x k hv hk
  refine ⟨fun hp => ⟨?_, ?_⟩, fun hp => ?_⟩
  · exact congrArg Host.Outcome.next (State.skipOnKey_of_fault (.skp x) x true hv hp)
  · exact congrArg Host.Outcome.next (State.skipOnKey_of_fault (.sknp x) x false hv hp)
  · have hskip (i : Instr) (pressed : Bool) :
        s.skipOnKey i x pressed = s.advance.skipIf (s.keyDown k == pressed) :=
      State.skipOnKey_of_nibble i pressed (by simp [hp]) hk
    refine ⟨⟨_, congrArg Host.Outcome.next (hskip _ _), s.sameExcept_advance_skipIf _, ?_⟩,
      ⟨_, congrArg Host.Outcome.next (hskip _ _), s.sameExcept_advance_skipIf _, ?_⟩⟩
    · cases s.keyDown k with
      | true => exact congrArg State.pc State.advance_skipIf_true
      | false => rfl
    · cases s.keyDown k with
      | true => rfl
      | false => exact congrArg State.pc State.advance_skipIf_true

theorem noEdges_getElem (j : Fin 16) : noEdges[j] = false := by
  simp [noEdges]

/-- Settles O42: the outcome is the start of a wait (`State.beginWait`) after the fetch's advance. -/
theorem keyWaitBegins : Obligations.KeyWaitBegins := by
  unfold Obligations.KeyWaitBegins
  intro s x
  exact ⟨_, rfl, rfl, noEdges_getElem, rfl,
    (State.sameExcept_setPc _).trans (State.sameExcept_beginWait _ x)⟩

end Sys2Proof.Machine
end

/-! ### The sprite draw: the pixels covered, and the display and the collision left (44_display.md R232 to
R234) -/

section
namespace Sys2Proof.Machine

/-- The pixels the n-row sprite at I covers from the place V[x] and V[y] name. -/
def State.spritePixels (s : State) (x y n : Digit) : List (Fin 32 × Fin 64) :=
  rowsPixels s.cfg.drawEdge (startColumn (s.getV x)) (startRow (s.getV y)) (s.bytesAtI n.toNat)

section
variable {s t : State} {x y n : Digit} {r : Fin 32} {c : Fin 64}

theorem State.mem_spritePixels_iff : (r, c) ∈ s.spritePixels x y n ↔ spriteCovers s x y n r c := by
  simp only [State.spritePixels, mem_rowsPixels, State.getElem_bytesAtI, State.bytesAtI_length,
    pixelAt_eq_some, exists_prop]
  rfl

theorem State.spritePixels_nodup : (s.spritePixels x y n).Nodup :=
  rowsPixels_nodup _ _ _ _ (by rw [State.bytesAtI_length]; have := n.isLt; omega)

theorem State.drawSprite_eq_fold :
    s.drawSprite x y n = (s.spritePixels x y n).foldl invertPixel (s.disp, false) :=
  drawRows_eq_fold ..

theorem State.get_drawSprite_of_covers (h : spriteCovers s x y n r c) :
    Display.get (s.drawSprite x y n).1 r c = !Display.get s.disp r c := by
  rw [State.drawSprite_eq_fold, (fold_invertPixel _ _ State.spritePixels_nodup).1,
    if_pos (State.mem_spritePixels_iff.2 h)]

theorem State.get_drawSprite_of_not_covers (h : ¬ spriteCovers s x y n r c) :
    Display.get (s.drawSprite x y n).1 r c = Display.get s.disp r c := by
  rw [State.drawSprite_eq_fold, (fold_invertPixel _ _ State.spritePixels_nodup).1,
    if_neg fun hmem => h (State.mem_spritePixels_iff.1 hmem)]

/-- A collision is a covered pixel that was on. -/
theorem State.drawSprite_collides_iff :
    (s.drawSprite x y n).2 = true ↔
      ∃ r c, spriteCovers s x y n r c ∧ Display.get s.disp r c = true := by
  rw [State.drawSprite_eq_fold, (fold_invertPixel _ _ State.spritePixels_nodup).2]
  simp only [Bool.false_eq_true, false_or, Prod.exists, State.mem_spritePixels_iff]

/-- The sprite's bytes are in range exactly where the check of a draw passes. -/
theorem State.spanInRange_sprite_iff :
    s.spanInRange n.toNat = true ↔ n = 0 ∨ s.I.toNat + n.toNat - 1 ≤ 0xFFF := by
  have hzero : n = 0 ↔ n.toNat = 0 := BitVec.toNat_inj.symm
  rw [State.spanInRange_iff, hzero]
  omega

/-- Two states that draw the same bytes at the same place cover the same pixels. -/
theorem spriteCovers_congr (hbyte : ∀ a, t.readByte a = s.readByte a) (hI : t.I = s.I)
    (hcfg : t.cfg = s.cfg) (hx : (t.getV x).toNat % 64 = (s.getV x).toNat % 64)
    (hy : (t.getV y).toNat % 32 = (s.getV y).toNat % 32) :
    spriteCovers t x y n r c ↔ spriteCovers s x y n r c := by
  simp only [spriteCovers, hbyte, hI, hcfg, hx, hy]

end

/-- Settles O35: the outcome is a write of the display the draw leaves, and then of VF. -/
theorem drawInvertsTheCoveredPixels : Obligations.DrawInvertsTheCoveredPixels := by
  unfold Obligations.DrawInvertsTheCoveredPixels
  intro s x y n h
  refine ⟨_, exec_drw_of_spanInRange (State.spanInRange_sprite_iff.2 h), fun r c => ⟨?_, ?_⟩, rfl,
    fun k hk => ?_, (State.sameExcept_advance_setRegs _).trans (State.sameExcept_setDisp _ _)⟩
  · exact State.get_drawSprite_of_covers
  · exact State.get_drawSprite_of_not_covers
  · exact (State.getV_setFlag _ _ k).trans (if_neg fun hVF => hk (List.mem_singleton.2 hVF.symm))

/-- Settles O36: the flag written last is the draw's collision (`State.drawSprite_collides_iff`). -/
theorem collisionFlagIsExact : Obligations.CollisionFlagIsExact := by
  unfold Obligations.CollisionFlagIsExact
  intro s x y n h
  refine ⟨_, exec_drw_of_spanInRange (State.spanInRange_sprite_iff.2 h), fun hon => ?_, fun hoff => ?_⟩
  · have hflag := State.drawSprite_collides_iff.2 hon
    rw [State.getV_setFlag, hflag]; rfl
  · have hflag := Bool.eq_false_iff.2 (mt State.drawSprite_collides_iff.1 hoff)
    rw [State.getV_setFlag, hflag]; rfl

/-- Settles O37: the second draw covers the pixels the first covered (`spriteCovers_congr`), which the
first inverted, so it inverts them back and collides where one was off before the first. -/
theorem drawingTwiceRestoresTheDisplay : Obligations.DrawingTwiceRestoresTheDisplay := by
  unfold Obligations.DrawingTwiceRestoresTheDisplay
  intro s t u x y n hfault hfirst hsecond hx hy
  have hrange := State.spanInRange_sprite_iff.1 (faultOf_drw_eq_none_iff.1 hfault)
  obtain ⟨t', ht', hpixels, -, hregs, hframe⟩ := drawInvertsTheCoveredPixels s x y n hrange
  cases ht'.symm.trans hfirst
  have hI : t.I = s.I := hframe .I (by decide)
  obtain ⟨u', hu', hpixels', -⟩ := drawInvertsTheCoveredPixels t x y n (by rwa [hI])
  obtain ⟨u'', hu'', hcollides, hclear⟩ := collisionFlagIsExact t x y n (by rwa [hI])
  cases hu'.symm.trans hsecond
  cases hu''.symm.trans hsecond
  have hkept {k : Digit} (hk : k ≠ 0xF) : t.getV k = s.getV k := hregs k (by simpa using hk)
  have hplace : (t.getV x).toNat % 64 = (s.getV x).toNat % 64 := by
    by_cases hxF : x = 0xF
    · rw [hxF]; exact hx hxF
    · rw [hkept hxF]
  have hplace' : (t.getV y).toNat % 32 = (s.getV y).toNat % 32 := by
    by_cases hyF : y = 0xF
    · rw [hyF]; exact hy hyF
    · rw [hkept hyF]
  have hcovers {r c} : spriteCovers t x y n r c ↔ spriteCovers s x y n r c :=
    spriteCovers_congr (hframe .mem (by decide)) hI (hframe .cfg (by decide)) hplace hplace'
  constructor
  · refine Display.ext_get _ _ fun r c => ?_
    by_cases hcov : spriteCovers s x y n r c
    · rw [(hpixels' r c).1 (hcovers.2 hcov), (hpixels r c).1 hcov, Bool.not_not]
    · rw [(hpixels' r c).2 (mt hcovers.1 hcov), (hpixels r c).2 hcov]
  · have hlit : (∃ r c, spriteCovers t x y n r c ∧ Display.get t.disp r c = true) ↔
        ∃ r c, spriteCovers s x y n r c ∧ Display.get s.disp r c = false := by
      refine exists_congr fun r => exists_congr fun c => ?_
      rw [hcovers]
      refine and_congr_right fun hcov => ?_
      rw [(hpixels r c).1 hcov, Bool.not_eq_true']
    rw [← hlit]
    exact ⟨fun hVF => by_contra fun hoff => absurd (hVF.symm.trans (hclear hoff)) (by decide), hcollides⟩

end Sys2Proof.Machine
end

/-! ### What a turn can do: the moves of the engine, and of every agent with its event (40_engine.md R100 to
R108, 60_exceptions.md R330) -/

section
namespace Sys2Proof.Machine

/-! ### The words a decoding comes from -/

theorem Decoded.encode_of_decode {w : Word} {i : Instr} (h : decode w = .instr i) : i.encode = w := by
  have hword := decode_word w
  rwa [h] at hword

theorem Decoded.eq_of_decode_unknown {w v : Word} (h : decode w = .unknown v) : v = w := by
  have hword := decode_word w
  rwa [h] at hword

/-- No key is latched where no edge is. -/
theorem State.edgeKeys_eq_nil_iff (s : State) : s.edgeKeys = [] ↔ s.keyEdge = noEdges := by
  rw [List.eq_nil_iff_forall_not_mem]
  simp only [State.mem_edgeKeys, Bool.not_eq_true]
  constructor
  · intro h
    refine Vector.ext fun j hj => ?_
    have hedge := h (BitVec.ofFin ⟨j, hj⟩)
    simpa [noEdges] using hedge
  · intro h k
    simp [h, noEdges]

/-- What the engine's turn can do where it answers a next state: nothing in `Ready` or in a wait with no
edge latched; the end of a wait; and in `Running` a fault, with the word fetched in its record, a skipped
unknown word, or an instruction with no listed cause. -/
inductive EngineMove (s : State) : State → Prop where
  | idle (hrun : s.run = .ready) : EngineMove s s
  | waits (x : Digit) (hrun : s.run = .awaitingKey x) (hedges : s.keyEdge = noEdges) : EngineMove s s
  | completes (x k : Digit) (hrun : s.run = .awaitingKey x) (hedge : s.keyEdge[k.toNat]'k.isLt = true) :
      EngineMove s (s.completeWait x k)
  | raises (c : FaultCause) (hrun : s.run = .running) : EngineMove s (s.raise c s.fetch)
  | passes (w : Word) (hrun : s.run = .running) (hfetch : s.fetch = some w)
      (hdecode : decode w = .unknown w) : EngineMove s (s.advance.emit (.diagnostic s.pc w))
  | executes (w : Word) (i : Instr) (t : State) (hrun : s.run = .running) (hfetch : s.fetch = some w)
      (hdecode : decode w = .instr i) (hnone : faultOf i s = none) (hexec : exec i s = .next t)
      (hframe : SameExcept (mayWrite i) s t) : EngineMove s t

/-- What the turn of an event's agent can do where it answers a next state. -/
inductive Move (s : State) : Event → State → Prop where
  | engine (t : State) (h : EngineMove s t) : Move s .engine t
  | tick : Move s .tick s.tick
  | start : Move s .start s.start
  | stop : Move s .stop s.stop
  | load (rom : List Byte) : Move s (.load rom) (s.load rom)
  | keyWrite (mask values : BitVec 16) : Move s (.keyWrite mask values) (s.keyWrite mask values)

section
variable {s t : State}

theorem State.unknownOpcode_of_halt (w : Word) (h : s.cfg.unknownPolicy = .halt) :
    s.unknownOpcode w = s.raise .unknownOpcode (some w) := by
  rw [State.unknownOpcode, h]

theorem State.unknownOpcode_of_skip (w : Word) (h : s.cfg.unknownPolicy = .skip) :
    s.unknownOpcode w = s.advance.emit (.diagnostic s.pc w) := by
  rw [State.unknownOpcode, h]

/-- The instruction step answers a next state, which is one of the engine's moves in `Running`. -/
theorem instructionStep_move (hrun : s.run = .running) :
    ∃ t, instructionStep s = .next t ∧ EngineMove s t := by
  rcases instructionStep_cases s with ⟨hf, h⟩ | ⟨w, i, hf, hd, h⟩ | ⟨w, v, hf, hd, h⟩
  · exact ⟨_, h, hf ▸ .raises .fetchOutOfRange hrun⟩
  · rcases exec_cases i s with ⟨c, -, hfault⟩ | ⟨hnone, t, hexec, hframe⟩
    · refine ⟨_, h.trans hfault, ?_⟩
      have hraise : s.raiseFor i c = s.raise c s.fetch := by
        rw [State.raiseFor, hf, Decoded.encode_of_decode hd]
      exact hraise ▸ .raises c hrun
    · exact ⟨t, h.trans hexec, .executes w i t hrun hf hd hnone hexec hframe⟩
  · cases Decoded.eq_of_decode_unknown hd
    refine ⟨_, h, ?_⟩
    cases hp : s.cfg.unknownPolicy with
    | halt =>
      rw [State.unknownOpcode_of_halt w hp, ← hf]
      exact .raises .unknownOpcode hrun
    | skip =>
      rw [State.unknownOpcode_of_skip w hp]
      exact .passes w hrun hf hd

/-- The engine's turn answers a next state, which is one of its moves, but in `Halted`. -/
theorem engineStep_cases (s : State) :
    (∃ why, s.run = .halted why ∧ engineStep s = .fault (.runEnded why)) ∨
    ∃ t, engineStep s = .next t ∧ EngineMove s t := by
  cases hrun : s.run with
  | ready => exact .inr ⟨s, engineStep_ready hrun, .idle hrun⟩
  | running =>
    rw [engineStep_running hrun]
    exact .inr (instructionStep_move hrun)
  | awaitingKey x =>
    refine .inr ⟨_, engineStep_awaiting hrun, ?_⟩
    rcases s.awaitStep_cases x with ⟨hnil, h⟩ | ⟨k, hk, h⟩
    · rw [h]
      exact .waits x hrun (s.edgeKeys_eq_nil_iff.1 hnil)
    · rw [h]
      exact .completes x k hrun ((s.mem_edgeKeys k).1 hk)
  | halted why => exact .inl ⟨why, rfl, engineStep_halted hrun⟩

/-- A turn is one of the moves of its event's agent. -/
theorem move_of_takeEvent {e : Event} (h : takeEvent e s = .next t) : Move s e t := by
  cases e with
  | engine =>
    rcases engineStep_cases s with ⟨why, -, hfault⟩ | ⟨u, hu, hmove⟩
    · cases hfault.symm.trans h
    · cases hu.symm.trans h
      exact .engine _ hmove
  | tick => cases h; exact .tick
  | start => cases h; exact .start
  | stop => cases h; exact .stop
  | load rom => cases h; exact .load rom
  | keyWrite mask values => cases h; exact .keyWrite mask values

/-- A step is a move from the state with another schedule. -/
theorem move_of_step (h : step s = .next t) :
    ∃ sched, Move { s with sched := sched } s.nextEvent.1 t :=
  ⟨_, s.nextEvent_state ▸ move_of_takeEvent h⟩

end

end Sys2Proof.Machine
end

/-! ### The frame of every move, and what a halted machine and the run states of a turn leave
(10_state.md R48) -/

section
namespace Sys2Proof.Machine

theorem SameExcept.mono {s t : State} {l l' : List Piece} (h : SameExcept l s t) (hl : l ⊆ l') :
    SameExcept l' s t :=
  fun p hp => h p fun hmem => hp (hl hmem)

section
variable (s : State)

theorem State.sameExcept_nil : SameExcept [] s s := by
  intro p _
  cases p with
  | mem | V => exact fun _ => rfl
  | I | pc | stack | sp | DT | ST | disp | keys | run | keyEdge | cfg | sched | draws | outputs => rfl

theorem State.sameExcept_setSched (sched : List Event) :
    SameExcept [.sched] s { s with sched := sched } := by
  intro p hp
  cases p with
  | sched => simp at hp
  | mem | V => exact fun _ => rfl
  | I | pc | stack | sp | DT | ST | disp | keys | run | keyEdge | cfg | draws | outputs => rfl

theorem State.sameExcept_setRun (run : RunState) : SameExcept [.run] s { s with run := run } := by
  intro p hp
  cases p with
  | run => simp at hp
  | mem | V => exact fun _ => rfl
  | I | pc | stack | sp | DT | ST | disp | keys | keyEdge | cfg | sched | draws | outputs => rfl

theorem State.sameExcept_emit (o : Output) : SameExcept [.outputs] s (s.emit o) := by
  intro p hp
  cases p with
  | outputs => simp at hp
  | mem | V => exact fun _ => rfl
  | I | pc | stack | sp | DT | ST | disp | keys | run | keyEdge | cfg | sched | draws => rfl

theorem State.sameExcept_setMem (m : Memory) : SameExcept [.mem] s { s with mem := m } := by
  intro p hp
  cases p with
  | mem => simp at hp
  | V => exact fun _ => rfl
  | I | pc | stack | sp | DT | ST | disp | keys | run | keyEdge | cfg | sched | draws | outputs => rfl

theorem State.sameExcept_completeWait (x k : Digit) :
    SameExcept [.V, .run, .keyEdge, .draws] s (s.completeWait x k) := by
  intro p hp
  cases p with
  | V | run | keyEdge | draws => simp at hp
  | mem => exact fun _ => rfl
  | I | pc | stack | sp | DT | ST | disp | keys | cfg | sched | outputs => rfl

theorem State.sameExcept_tickTimers : SameExcept [.DT, .ST] s s.tickTimers := by
  intro p hp
  cases p with
  | DT | ST => simp at hp
  | mem | V => exact fun _ => rfl
  | I | pc | stack | sp | disp | keys | run | keyEdge | cfg | sched | draws | outputs => rfl

theorem State.sameExcept_setKeys (keys : KeyFlags) :
    SameExcept [.keys] s { s with keys := keys } := by
  intro p hp
  cases p with
  | keys => simp at hp
  | mem | V => exact fun _ => rfl
  | I | pc | stack | sp | DT | ST | disp | run | keyEdge | cfg | sched | draws | outputs => rfl

theorem State.sameExcept_setKeyEdge (edges : KeyFlags) :
    SameExcept [.keyEdge] s { s with keyEdge := edges } := by
  intro p hp
  cases p with
  | keyEdge => simp at hp
  | mem | V => exact fun _ => rfl
  | I | pc | stack | sp | DT | ST | disp | keys | run | cfg | sched | draws | outputs => rfl

/-! ### The host's events by run state -/

variable {s}

theorem State.tick_of_awaiting {x : Digit} (h : s.run = .awaitingKey x) : s.tick = s.tickTimers := by
  rw [State.tick, h]

theorem State.tick_of_ready (h : s.run = .ready) : s.tick = s := by
  rw [State.tick, h]

theorem State.tick_of_halted {why : HaltReason} (h : s.run = .halted why) : s.tick = s := by
  rw [State.tick, h]

theorem State.start_of_ready (h : s.run = .ready) : s.start = { s with run := .running } := by
  rw [State.start, h]

theorem State.start_of_ne_ready (h : s.run ≠ .ready) : s.start = s := by
  unfold State.start
  split
  · next hready => exact absurd hready h
  all_goals rfl

theorem State.stop_of_halted {why : HaltReason} (h : s.run = .halted why) : s.stop = s := by
  rw [State.stop, h]

theorem State.stop_of_not_ended (h : ¬ s.ended) : s.stop = { s with run := .halted .stopped } := by
  unfold State.stop
  split
  case h_4 why hrun => exact absurd ⟨why, hrun⟩ h
  all_goals rfl

theorem State.load_of_ready {rom : List Byte} (h : s.run = .ready) (hrom : rom.length ≤ romMax) :
    s.load rom = { s with mem := Memory.load s.mem rom }.emit (.loadResult .ok) := by
  rw [State.load, h]
  exact if_pos hrom

theorem State.load_of_too_large {rom : List Byte} (h : s.run = .ready) (hrom : ¬ rom.length ≤ romMax) :
    s.load rom = s.emit (.loadResult .romTooLarge) := by
  rw [State.load, h]
  exact if_neg hrom

theorem State.load_of_ne_ready {rom : List Byte} (h : s.run ≠ .ready) :
    s.load rom = s.emit (.loadResult .notReady) := by
  unfold State.load
  split
  · next hready => exact absurd hready h
  all_goals rfl

theorem State.keyWrite_of_awaiting {mask values : BitVec 16} {x : Digit} (h : s.run = .awaitingKey x) :
    s.keyWrite mask values =
      { s with
        keys := keysAfter s.keys mask values
        keyEdge := edgesAfter s.keyEdge s.keys mask values } := by
  unfold State.keyWrite
  rw [h]

theorem State.keyWrite_of_not_awaiting {mask values : BitVec 16} (h : ¬ ∃ x, s.run = .awaitingKey x) :
    s.keyWrite mask values = { s with keys := keysAfter s.keys mask values } := by
  unfold State.keyWrite
  split
  · next x hrun => exact absurd ⟨x, hrun⟩ h
  all_goals rfl

/-! ### The frames of the host's events -/

variable (s)

theorem State.sameExcept_tick : SameExcept [.DT, .ST] s s.tick := by
  cases h : s.run with
  | ready => rw [State.tick_of_ready h]; exact s.sameExcept_nil.mono (List.nil_subset _)
  | running => rw [State.tick_of_running h]; exact s.sameExcept_tickTimers
  | awaitingKey x => rw [State.tick_of_awaiting h]; exact s.sameExcept_tickTimers
  | halted why => rw [State.tick_of_halted h]; exact s.sameExcept_nil.mono (List.nil_subset _)

theorem State.sameExcept_start : SameExcept [.run] s s.start := by
  by_cases h : s.run = .ready
  · rw [State.start_of_ready h]; exact s.sameExcept_setRun _
  · rw [State.start_of_ne_ready h]; exact s.sameExcept_nil.mono (List.nil_subset _)

theorem State.sameExcept_stop : SameExcept [.run] s s.stop := by
  by_cases h : s.ended
  · obtain ⟨why, h⟩ := h
    rw [State.stop_of_halted h]; exact s.sameExcept_nil.mono (List.nil_subset _)
  · rw [State.stop_of_not_ended h]; exact s.sameExcept_setRun _

theorem State.sameExcept_load (rom : List Byte) : SameExcept [.mem, .outputs] s (s.load rom) := by
  by_cases h : s.run = .ready
  · by_cases hrom : rom.length ≤ romMax
    · rw [State.load_of_ready h hrom]
      exact (s.sameExcept_setMem _).trans (State.sameExcept_emit _ _)
    · rw [State.load_of_too_large h hrom]
      exact (s.sameExcept_emit _).mono (List.subset_cons_self _ _)
  · rw [State.load_of_ne_ready h]
    exact (s.sameExcept_emit _).mono (List.subset_cons_self _ _)

theorem State.sameExcept_keyWrite (mask values : BitVec 16) :
    SameExcept [.keys, .keyEdge] s (s.keyWrite mask values) := by
  have hkeys := s.sameExcept_setKeys (keysAfter s.keys mask values)
  by_cases h : ∃ x, s.run = .awaitingKey x
  · obtain ⟨x, h⟩ := h
    rw [State.keyWrite_of_awaiting h]
    exact hkeys.trans (State.sameExcept_setKeyEdge _ _)
  · rw [State.keyWrite_of_not_awaiting h]
    exact hkeys.mono (List.cons_subset_cons _ (List.nil_subset _))

end

end Sys2Proof.Machine
end

/-! ### The canonical form of memory, kept by every move (20_memory.md R60, R63) -/

section
namespace Sys2Proof.Machine

section
variable {s t : State} {i : Instr}

/-! ### Memory after the events that do not write it -/

theorem State.tick_mem : s.tick.mem = s.mem := by unfold State.tick; split <;> rfl

theorem State.start_mem : s.start.mem = s.mem := by unfold State.start; split <;> rfl

theorem State.stop_mem : s.stop.mem = s.mem := by unfold State.stop; split <;> rfl

theorem State.keyWrite_mem (mask values : BitVec 16) : (s.keyWrite mask values).mem = s.mem := by
  unfold State.keyWrite; split <;> rfl

/-- The four instructions that access memory and the four that branch on a check aside, an instruction has
one outcome, whose memory is seen from it. -/
theorem exec_mem_of_not_mayWrite (hmem : .mem ∉ mayWrite i) (hnone : faultOf i s = none)
    (hexec : exec i s = .next t) : t.mem = s.mem := by
  cases i with
  | ldB | stRegs => simp [mayWrite] at hmem
  | ret =>
    cases (exec_ret_of_pos (faultOf_ret_eq_none_iff.1 hnone)).symm.trans hexec
    rfl
  | call nnn =>
    cases (exec_call_of_lt nnn (faultOf_call_eq_none_iff.1 hnone)).symm.trans hexec
    rfl
  | drw x y n =>
    cases (exec_drw_of_spanInRange (faultOf_drw_eq_none_iff.1 hnone)).symm.trans hexec
    simp
  | ldRegs x =>
    cases (exec_ldRegs_of_spanInRange (faultOf_ldRegs_eq_none_iff.1 hnone)).symm.trans hexec
    simp
  | skp x =>
    cases (exec_skp_of_no_fault hnone).symm.trans hexec
    simp
  | sknp x =>
    cases (exec_sknp_of_no_fault hnone).symm.trans hexec
    simp
  | cls | jp _ | seImm _ _ | sneImm _ _ | seReg _ _ | sneReg _ _ | ldImm _ _ | addImm _ _ | ldReg _ _
  | orReg _ _ | andReg _ _ | xorReg _ _ | addReg _ _ | subReg _ _ | shr _ _ | subn _ _ | shl _ _
  | ldI _ | jpV0 _ | rnd _ _ | ldVxDT _ | ldVxK _ | ldDTVx _ | ldSTVx _ | addI _ | ldF _ =>
    cases hexec
    simp

/-- The two instructions that write memory write it in range, by the check. -/
theorem exec_keeps_mem_wf (hwf : Memory.wf s.mem) (hnone : faultOf i s = none)
    (hexec : exec i s = .next t) : Memory.wf t.mem := by
  by_cases hmem : .mem ∈ mayWrite i
  · cases i with
    | ldB x =>
      have hspan := faultOf_ldB_eq_none_iff.1 hnone
      cases (exec_ldB_of_spanInRange hspan).symm.trans hexec
      have hI := (s.spanInRange_iff 3).1 hspan
      exact Memory.writeBytes_wf _ _ _ (fun _ => show _ + 3 ≤ 0x1000 by omega) hwf
    | stRegs x =>
      have hspan := faultOf_stRegs_eq_none_iff.1 hnone
      cases (exec_stRegs_of_spanInRange hspan).symm.trans hexec
      have hI := (s.spanInRange_iff _).1 hspan
      have hlen := s.regsUpTo_length x
      exact Memory.writeBytes_wf _ _ _ (fun _ => show _ + _ ≤ 0x1000 by omega) hwf
    | _ => simp [mayWrite] at hmem
  · rwa [exec_mem_of_not_mayWrite hmem hnone hexec]

theorem EngineMove.keeps_mem_wf (h : EngineMove s t) (hwf : Memory.wf s.mem) : Memory.wf t.mem := by
  cases h with
  | idle | waits | completes | raises | passes => exact hwf
  | executes w i t _ _ _ hnone hexec => exact exec_keeps_mem_wf hwf hnone hexec

/-- Of the host's events only an accepted load writes memory, at most `ROM_MAX` bytes of it. -/
theorem Move.keeps_mem_wf {e : Event} (h : Move s e t) (hwf : Memory.wf s.mem) : Memory.wf t.mem := by
  cases h with
  | engine t h => exact h.keeps_mem_wf hwf
  | tick => rwa [State.tick_mem]
  | start => rwa [State.start_mem]
  | stop => rwa [State.stop_mem]
  | keyWrite => rwa [State.keyWrite_mem]
  | load rom =>
    by_cases hready : s.run = .ready
    · by_cases hrom : rom.length ≤ romMax
      · rw [State.load_of_ready hready hrom]
        exact Memory.load_wf s.mem rom hrom hwf
      · rwa [State.load_of_too_large hready hrom]
    · rwa [State.load_of_ne_ready hready]

end

/-- Settles O56: every move keeps the form (`Move.keeps_mem_wf`), in which the schedule has no part. -/
theorem stepKeepsTheMemoryForm : Obligations.StepKeepsTheMemoryForm := by
  unfold Obligations.StepKeepsTheMemoryForm
  intro s t hwf h
  obtain ⟨sched, hmove⟩ := move_of_step h
  exact hmove.keeps_mem_wf hwf

end Sys2Proof.Machine
end

/-! ### The control invariant, kept by every move (40_engine.md R102; 41_control_flow.md R130, R134, R139;
10_state.md R44; 60_exceptions.md R301, R302, R335) -/

section
namespace Sys2Proof.Machine

section
variable {s t : State} {i : Instr}

theorem State.pc_lt_of_fetch {w : Word} (h : s.fetch = some w) : s.pc.toNat + 1 ≤ 0xFFF := by
  by_contra hgt
  rw [State.fetch_of_gt (by omega)] at h
  cases h

theorem State.faultRecord_eq_some_iff {r : FaultRecord} :
    s.faultRecord = some r ↔ s.run = .halted (.fault r) := by
  unfold State.faultRecord
  split
  · next r' hrun => simp [hrun]
  · next hrun => exact iff_of_false nofun fun h => hrun r h

theorem State.pcBounded.congr (h : s.pcBounded) (hpc : t.pc = s.pc) : t.pcBounded := by
  rwa [State.pcBounded, hpc]

theorem State.returnsBounded.congr (h : s.returnsBounded) (hstack : t.stack = s.stack)
    (hsp : t.sp.val ≤ s.sp.val) : t.returnsBounded := by
  intro j hj hlt
  simp only [hstack]
  exact h j hj (hlt.trans_le hsp)

/-! ### The pc and the return addresses after an instruction -/

theorem word_add_toNat_le {p n : Word} (hp : p.toNat + 1 ≤ 0xFFF) :
    (p + n).toNat ≤ 0xFFE + n.toNat := by
  rw [BitVec.toNat_add]
  exact (Nat.mod_le _ _).trans (by omega)

theorem State.advance_skipIf_pcBounded (c : Bool) (hp : s.pc.toNat + 1 ≤ 0xFFF) :
    (s.advance.skipIf c).pcBounded := by
  cases c with
  | true =>
    rw [State.advance_skipIf_true]
    exact (word_add_toNat_le hp).trans (by decide)
  | false => exact (word_add_toNat_le hp).trans (by decide)

/-- After a fetched instruction the pc is the next word or the one after it, a return address, an address
nnn, or nnn + V[0] (41_control_flow.md R139). -/
theorem exec_pcBounded (hp : s.pc.toNat + 1 ≤ 0xFFF) (hret : s.returnsBounded)
    (hnone : faultOf i s = none) (hexec : exec i s = .next t) : t.pcBounded := by
  by_cases hwrites : writesPc i = false
  · have hpc := fallThroughAdvancesByTwo i s t hwrites hnone hexec
    rw [State.pcBounded, hpc]
    exact (word_add_toNat_le hp).trans (by decide)
  · cases i with
    | ret =>
      have hpos := faultOf_ret_eq_none_iff.1 hnone
      cases (exec_ret_of_pos hpos).symm.trans hexec
      exact (hret _ (by omega) (by omega)).trans (by decide)
    | call nnn =>
      cases (exec_call_of_lt nnn (faultOf_call_eq_none_iff.1 hnone)).symm.trans hexec
      have hlt := nnn.isLt
      exact (address_toNat nnn).trans_le (by omega)
    | jp nnn =>
      cases hexec
      have hlt := nnn.isLt
      exact (address_toNat nnn).trans_le (by omega)
    | jpV0 nnn =>
      cases hexec
      have hlt := nnn.isLt
      have hV0 := (s.getV 0).isLt
      exact (address_add_extend_toNat nnn (s.getV 0)).trans_le (by omega)
    | seImm | sneImm | seReg | sneReg => cases hexec; exact s.advance_skipIf_pcBounded _ hp
    | skp x =>
      cases (exec_skp_of_no_fault hnone).symm.trans hexec
      exact s.advance_skipIf_pcBounded _ hp
    | sknp x =>
      cases (exec_sknp_of_no_fault hnone).symm.trans hexec
      exact s.advance_skipIf_pcBounded _ hp
    | _ => exact absurd rfl hwrites

/-- Of the instructions only a call adds a return address, and it is an address after a fetched word. -/
theorem exec_returnsBounded (hp : s.pc.toNat + 1 ≤ 0xFFF) (hret : s.returnsBounded)
    (hnone : faultOf i s = none) (hexec : exec i s = .next t) (hframe : SameExcept (mayWrite i) s t) :
    t.returnsBounded := by
  cases i with
  | ret =>
    cases (exec_ret_of_pos (faultOf_ret_eq_none_iff.1 hnone)).symm.trans hexec
    exact hret.congr rfl (Nat.sub_le _ _)
  | call nnn =>
    obtain ⟨t', ht', -, hsp, hnew, hold, -⟩ :=
      (callPushesTheReturnAddress s nnn).1 (faultOf_call_eq_none_iff.1 hnone)
    cases ht'.symm.trans hexec
    intro j hj hlt
    by_cases hj' : j = s.sp.val
    · subst hj'
      rw [hnew]
      exact word_add_toNat_le hp
    · rw [hold j hj hj']
      exact hret j hj (by omega)
  | _ => exact hret.congr (hframe .stack (by simp [mayWrite])) (hframe .sp (by simp [mayWrite])).le

/-! ### The run state and the edges after an instruction -/

theorem ldVxK_of_run_mem_mayWrite (h : .run ∈ mayWrite i ∨ .keyEdge ∈ mayWrite i) :
    ∃ x, i = .ldVxK x := by
  cases i with
  | ldVxK x => exact ⟨x, rfl⟩
  | _ => simp [mayWrite] at h

/-- An instruction with no listed cause begins a wait, or leaves the run state and the edges. -/
theorem exec_run_cases (hexec : exec i s = .next t) (hframe : SameExcept (mayWrite i) s t) :
    (∃ x, i = .ldVxK x ∧ t.run = .awaitingKey x) ∨
    ((∀ x, i ≠ .ldVxK x) ∧ t.run = s.run ∧ t.keyEdge = s.keyEdge) := by
  by_cases hK : ∃ x, i = .ldVxK x
  · obtain ⟨x, rfl⟩ := hK
    cases hexec
    exact .inl ⟨x, rfl, rfl⟩
  · refine .inr ⟨fun x hx => hK ⟨x, hx⟩, ?_, ?_⟩
    · exact hframe .run fun h => hK (ldVxK_of_run_mem_mayWrite (.inl h))
    · exact hframe .keyEdge fun h => hK (ldVxK_of_run_mem_mayWrite (.inr h))

/-! ### The invariant by run state -/

theorem State.controlInv_of_running (hpc : t.pcBounded) (hret : t.returnsBounded)
    (hrun : t.run = .running) (hedges : t.keyEdge = noEdges) : t.controlInv := by
  refine ⟨hpc, hret, fun _ => hedges, fun hready => ?_, fun r hr => ?_⟩
  · cases hrun.symm.trans hready
  · cases hrun.symm.trans (State.faultRecord_eq_some_iff.1 hr)

theorem State.controlInv_of_awaiting {x : Digit} (hpc : t.pcBounded) (hret : t.returnsBounded)
    (hrun : t.run = .awaitingKey x) : t.controlInv := by
  refine ⟨hpc, hret, fun hidle => ?_, fun hready => ?_, fun r hr => ?_⟩
  · rcases hidle with h | h <;> cases hrun.symm.trans h
  · cases hrun.symm.trans hready
  · cases hrun.symm.trans (State.faultRecord_eq_some_iff.1 hr)

theorem State.controlInv_of_halted {why : HaltReason} (hpc : t.pcBounded) (hret : t.returnsBounded)
    (hrun : t.run = .halted why) (hprecise : t.faultPrecise) : t.controlInv := by
  refine ⟨hpc, hret, fun hidle => ?_, fun hready => ?_, hprecise⟩
  · rcases hidle with h | h <;> cases hrun.symm.trans h
  · cases hrun.symm.trans hready

theorem State.controlInv_of_ready (hpc : t.pc = 0x200) (hret : t.returnsBounded)
    (hrun : t.run = .ready) (hedges : t.keyEdge = noEdges) : t.controlInv := by
  refine ⟨?_, hret, fun _ => hedges, fun _ => hpc, fun r hr => ?_⟩
  · rw [State.pcBounded, hpc]; decide
  · cases hrun.symm.trans (State.faultRecord_eq_some_iff.1 hr)

/-- The invariant is about the memory, the pc, the stack, the run state and the edges alone. -/
theorem State.controlInv.congr (h : s.controlInv)
    (hframe : SameExcept [.V, .I, .DT, .ST, .disp, .keys, .cfg, .sched, .draws, .outputs] s t) :
    t.controlInv := by
  obtain ⟨hpc, hret, hidle, hentry, hprecise⟩ := h
  have hpc' : t.pc = s.pc := hframe .pc (by decide)
  have hrun' : t.run = s.run := hframe .run (by decide)
  have hsp' : t.sp = s.sp := hframe .sp (by decide)
  have hbyte : ∀ a, t.readByte a = s.readByte a := hframe .mem (by decide)
  refine ⟨hpc.congr hpc', hret.congr (hframe .stack (by decide)) hsp'.le, ?_, ?_, ?_⟩
  · have hedge' : t.keyEdge = s.keyEdge := hframe .keyEdge (by decide)
    rwa [State.edgesIdle, hrun', hedge']
  · rwa [State.readyAtEntry, hrun', hpc']
  · have hfetch' : t.fetch = s.fetch := by simp only [State.fetch, hpc', hbyte]
    have hrecord' : t.faultRecord = s.faultRecord := by simp only [State.faultRecord, hrun']
    rwa [State.faultPrecise, hpc', hfetch', hrecord']

/-! ### The moves -/

theorem EngineMove.keeps_controlInv (h : EngineMove s t) (hinv : s.controlInv) : t.controlInv := by
  obtain ⟨hpc, hret, hidle, hentry, hprecise⟩ := id hinv
  cases h with
  | idle | waits => exact hinv
  | completes x k hrun hedge => exact State.controlInv_of_running hpc hret rfl rfl
  | raises c hrun =>
    refine State.controlInv_of_halted hpc hret rfl fun r hr => ?_
    cases hr
    exact ⟨rfl, rfl⟩
  | passes w hrun hfetch hdecode =>
    exact State.controlInv_of_running
      ((word_add_toNat_le (State.pc_lt_of_fetch hfetch)).trans (by decide)) hret hrun (hidle (.inr hrun))
  | executes w i t hrun hfetch hdecode hnone hexec hframe =>
    have hp := State.pc_lt_of_fetch hfetch
    have hpc' := exec_pcBounded hp hret hnone hexec
    have hret' := exec_returnsBounded hp hret hnone hexec hframe
    rcases exec_run_cases hexec hframe with ⟨x, -, hrun'⟩ | ⟨-, hrun', hedge'⟩
    · exact State.controlInv_of_awaiting hpc' hret' hrun'
    · exact State.controlInv_of_running hpc' hret' (hrun'.trans hrun)
        (hedge'.trans (hidle (.inr hrun)))

theorem State.start_keeps_controlInv (hinv : s.controlInv) : s.start.controlInv := by
  by_cases hready : s.run = .ready
  · obtain ⟨hpc, hret, hidle, -, -⟩ := hinv
    rw [State.start_of_ready hready]
    exact State.controlInv_of_running hpc hret rfl (hidle (.inl hready))
  · rwa [State.start_of_ne_ready hready]

theorem State.stop_keeps_controlInv (hinv : s.controlInv) : s.stop.controlInv := by
  by_cases hended : s.ended
  · obtain ⟨why, hrun⟩ := hended
    rwa [State.stop_of_halted hrun]
  · obtain ⟨hpc, hret, -, -, -⟩ := hinv
    rw [State.stop_of_not_ended hended]
    exact State.controlInv_of_halted hpc hret rfl nofun

theorem State.load_keeps_controlInv (rom : List Byte) (hinv : s.controlInv) :
    (s.load rom).controlInv := by
  by_cases hready : s.run = .ready
  · obtain ⟨-, hret, hidle, hentry, -⟩ := hinv
    have hframe := s.sameExcept_load rom
    have hsp : (s.load rom).sp = s.sp := hframe .sp (by decide)
    refine State.controlInv_of_ready ?_ (hret.congr (hframe .stack (by decide)) hsp.le) ?_ ?_
    · exact (hframe .pc (by decide)).trans (hentry hready)
    · exact (hframe .run (by decide)).trans hready
    · exact (hframe .keyEdge (by decide)).trans (hidle (.inl hready))
  · rw [State.load_of_ne_ready hready]
    exact hinv.congr ((s.sameExcept_emit _).mono (by decide))

theorem State.keyWrite_keeps_controlInv (mask values : BitVec 16) (hinv : s.controlInv) :
    (s.keyWrite mask values).controlInv := by
  by_cases hawait : ∃ x, s.run = .awaitingKey x
  · obtain ⟨x, hrun⟩ := hawait
    obtain ⟨hpc, hret, -, -, -⟩ := hinv
    have hframe := s.sameExcept_keyWrite mask values
    have hsp : (s.keyWrite mask values).sp = s.sp := hframe .sp (by decide)
    have hrun' : (s.keyWrite mask values).run = s.run := hframe .run (by decide)
    exact State.controlInv_of_awaiting (hpc.congr (hframe .pc (by decide)))
      (hret.congr (hframe .stack (by decide)) hsp.le) (hrun'.trans hrun)
  · rw [State.keyWrite_of_not_awaiting hawait]
    exact hinv.congr ((s.sameExcept_setKeys _).mono (by decide))

theorem Move.keeps_controlInv {e : Event} (h : Move s e t) (hinv : s.controlInv) : t.controlInv := by
  cases h with
  | engine t h => exact h.keeps_controlInv hinv
  | tick => exact hinv.congr (s.sameExcept_tick.mono (by decide))
  | start => exact State.start_keeps_controlInv hinv
  | stop => exact State.stop_keeps_controlInv hinv
  | load rom => exact State.load_keeps_controlInv rom hinv
  | keyWrite mask values => exact State.keyWrite_keeps_controlInv mask values hinv

end

/-- Settles O57: every move keeps the invariant (`Move.keeps_controlInv`), in which the schedule has no
part. -/
theorem stepKeepsTheControlInvariant : Obligations.StepKeepsTheControlInvariant := by
  unfold Obligations.StepKeepsTheControlInvariant
  intro s t hinv h
  obtain ⟨sched, hmove⟩ := move_of_step h
  exact hmove.keeps_controlInv hinv

end Sys2Proof.Machine
end

/-! ### The engine's turn in each run state: an instruction, a fetch fault, an unknown word, an idle turn, the
end of a wait, and a word placed for the next turn (40_engine.md R100 to R108; 45_keypad_timer_ops.md R264) -/

section
namespace Sys2Proof.Machine

section
variable {s s' t : State}

/-- A turn differs from the state before it in the schedule alone. -/
theorem State.engineTurn.exists_sched (h : s.engineTurn s') : ∃ sched, s' = { s with sched := sched } := by
  rcases h with ⟨-, rfl⟩ | ⟨rest, -, rfl⟩
  · exact ⟨s'.sched, rfl⟩
  · exact ⟨rest, rfl⟩

/-- The engine's turn in `Running` is the instruction step of the same state with another schedule. -/
theorem step_of_engineTurn_running (h : s.engineTurn s') (hrun : s.run = .running) :
    ∃ sched, s' = { s with sched := sched } ∧ step s = instructionStep { s with sched := sched } := by
  obtain ⟨sched, rfl⟩ := h.exists_sched
  exact ⟨sched, rfl, (step_of_engineTurn h).trans (engineStep_running hrun)⟩

theorem instructionStep_of_instr {w : Word} {i : Instr} (hfetch : s.fetch = some w)
    (hdecode : decode w = .instr i) : instructionStep s = exec i s := by
  simp [instructionStep, hfetch, hdecode]

theorem instructionStep_of_unknown {w : Word} (hfetch : s.fetch = some w)
    (hdecode : decode w = .unknown w) : instructionStep s = .next (s.unknownOpcode w) := by
  simp [instructionStep, hfetch, hdecode]

theorem instructionStep_of_no_fetch (hfetch : s.fetch = none) :
    instructionStep s = .next (s.raise .fetchOutOfRange none) := by
  simp [instructionStep, hfetch]

theorem State.awaitStep_of_no_edges {x : Digit} (h : s.keyEdge = noEdges) : s.awaitStep x = s := by
  rcases s.awaitStep_cases x with ⟨-, hidle⟩ | ⟨k, hk, -⟩
  · exact hidle
  · rw [s.edgeKeys_eq_nil_iff.2 h] at hk
    cases hk

theorem decode_of_decodeBytes {hi lo : Byte} {d : Decoded}
    (h : decodeBytes [hi, lo] = .word d []) : decode (Word.ofBytes hi lo) = d := by
  cases h; rfl

end

/-- Settles O5: the two bytes at pc are the word fetched. -/
theorem stepRunsTheDecodedInstruction : Obligations.StepRunsTheDecodedInstruction := by
  unfold Obligations.StepRunsTheDecodedInstruction
  intro s s' i hturn hrun hpc hbytes
  obtain ⟨sched, rfl, hstep⟩ := step_of_engineTurn_running hturn hrun
  exact hstep.trans (instructionStep_of_instr (State.fetch_of_le hpc) (decode_of_decodeBytes hbytes))

/-- Settles O6: no word is fetched, and the fault is raised. -/
theorem fetchPastMemoryHalts : Obligations.FetchPastMemoryHalts := by
  unfold Obligations.FetchPastMemoryHalts
  intro s s' hturn hrun hpc
  obtain ⟨sched, rfl, hstep⟩ := step_of_engineTurn_running hturn hrun
  exact hstep.trans (instructionStep_of_no_fetch (State.fetch_of_gt hpc))

/-- Settles O7: the outcome by policy (`State.unknownOpcode_of_halt`, `State.unknownOpcode_of_skip`). -/
theorem unknownWordFollowsThePolicy : Obligations.UnknownWordFollowsThePolicy := by
  unfold Obligations.UnknownWordFollowsThePolicy
  intro s s' w hturn hrun hpc hw hdecode
  obtain ⟨sched, rfl, hstep⟩ := step_of_engineTurn_running hturn hrun
  have hfetch : s.fetch = some w := hw ▸ State.fetch_of_le hpc
  have houtcome :=
    hstep.trans (instructionStep_of_unknown (s := { s with sched := sched }) hfetch hdecode)
  exact ⟨fun hp => houtcome.trans (congrArg _ (State.unknownOpcode_of_halt w hp)),
    fun hp => houtcome.trans (congrArg _ (State.unknownOpcode_of_skip w hp))⟩

/-- Settles O8: the turn in `Ready` (`engineStep_ready`) and the await-completion step with no edge
(`State.awaitStep_of_no_edges`) leave the state. -/
theorem engineIdlesWhenNotEnabled : Obligations.EngineIdlesWhenNotEnabled := by
  unfold Obligations.EngineIdlesWhenNotEnabled
  intro s s' hturn
  rw [step_of_engineTurn hturn]
  obtain ⟨sched, rfl⟩ := hturn.exists_sched
  refine ⟨fun hrun => engineStep_ready hrun, fun x hrun hedges => ?_⟩
  exact (engineStep_awaiting (s := { s with sched := sched }) hrun).trans
    (congrArg _ (State.awaitStep_of_no_edges hedges))

/-- Settles O43: of the two cases of the await-completion step (`State.awaitStep_cases`) the one with no
latched key is excluded. -/
theorem keyWaitCompletesWithALatchedKey : Obligations.KeyWaitCompletesWithALatchedKey := by
  unfold Obligations.KeyWaitCompletesWithALatchedKey
  intro s s' x hturn hrun hedge
  obtain ⟨sched, rfl⟩ := hturn.exists_sched
  have hstep :=
    (step_of_engineTurn hturn).trans (engineStep_awaiting (s := { s with sched := sched }) hrun)
  rcases State.awaitStep_cases { s with sched := sched } x with ⟨hnil, -⟩ | ⟨k, hk, hcomplete⟩
  · obtain ⟨j, hj⟩ := hedge
    have hnone : s.keyEdge = noEdges := (State.edgeKeys_eq_nil_iff _).1 hnil
    rw [hnone, noEdges_getElem] at hj
    cases hj
  · rw [hcomplete] at hstep
    refine ⟨_, k.toFin, hstep, (State.mem_edgeKeys _ k).1 hk, ?_, rfl, noEdges_getElem, fun j hj => ?_,
      State.sameExcept_completeWait _ x k⟩
    · rw [State.getV_completeWait, if_pos rfl]
      exact BitVec.toNat_setWidth_of_le (by decide)
    · rw [State.getV_completeWait, if_neg fun hx => hj (List.mem_singleton.2 hx.symm)]

/-! ### A placed word -/

section
variable {s : State} {w : Word}

theorem State.placePc_in_range : s.placePc.toNat + 1 ≤ 0xFFF := by
  unfold State.placePc
  split
  · next h => exact (inRange_iff _).1 h
  · decide

/-- The next turn of a placed state is the engine's, with the schedule of the state it was placed in. -/
theorem State.engineTurn_placeWord :
    (s.placeWord w).engineTurn { s.placeWord w with sched := s.sched } := by
  unfold State.placeWord
  cases hs : s.sched with
  | nil => exact .inl ⟨rfl, rfl⟩
  | cons e rest => exact .inr ⟨e :: rest, rfl, rfl⟩

/-- The word placed is the word fetched. -/
theorem State.fetch_placeWord (hm : Memory.wf s.mem) : (s.placeWord w).fetch = some w := by
  have hpc := s.placePc_in_range
  have hread (j : Nat) (hj : j < 2) :
      (s.placeWord w).readByte (s.placePc.toNat + j) = [w.hi, w.lo][j] :=
    State.readByte_writeBytes_getElem (s := s) (bs := [w.hi, w.lo]) hm
      (show s.placePc.toNat + 2 ≤ 0x1000 by omega) hj
  have hhi : (s.placeWord w).readByte s.placePc.toNat = w.hi := hread 0 (by decide)
  have hlo : (s.placeWord w).readByte (s.placePc.toNat + 1) = w.lo := hread 1 (by decide)
  have hfetch : (s.placeWord w).fetch = some (Word.ofBytes ((s.placeWord w).readByte s.placePc.toNat)
    ((s.placeWord w).readByte (s.placePc.toNat + 1))) := State.fetch_of_le hpc
  rw [hfetch, hhi, hlo, Word.ofBytes_hi_lo]

end

/-- Settles O9: the next turn is the engine's (`State.engineTurn_placeWord`), and it fetches the word
placed (`State.fetch_placeWord`), which decodes to the instruction (`decode_encode`). -/
theorem placedWordRunsNext : Obligations.PlacedWordRunsNext := by
  unfold Obligations.PlacedWordRunsNext
  intro s i hm
  have hplaced : s.withFetchWord 16 i.encode.toNat = s.placeWord i.encode := by
    rw [State.withFetchWord, Nat.mod_eq_of_lt i.encode.isLt, BitVec.ofNat_toNat, BitVec.setWidth_eq]
  rw [hplaced, step_of_engineTurn State.engineTurn_placeWord]
  exact (engineStep_running rfl).trans
    (instructionStep_of_instr (State.fetch_placeWord hm) (decode_encode i))

end Sys2Proof.Machine
end

/-! ### The host's events: key writes, ticks, loads, start and stop (60_exceptions.md R308, R321, R331, R333,
R335) -/

section
namespace Sys2Proof.Machine

/-! ### Key writes -/

section
variable {s : State} {mask values : BitVec 16}

theorem State.keyWrite_keys : (s.keyWrite mask values).keys = keysAfter s.keys mask values := by
  unfold State.keyWrite; split <;> rfl

theorem State.getElem_keys_keyWrite (k : Fin 16) :
    (s.keyWrite mask values).keys[k] =
      if mask.getLsbD k.val then values.getLsbD k.val else s.keys[k] := by
  simp [State.keyWrite_keys, keysAfter]

/-- In a wait an edge is latched where the key was not pressed and is pressed after the write. -/
theorem State.getElem_keyEdge_keyWrite (h : ∃ x, s.run = .awaitingKey x) (k : Fin 16) :
    (s.keyWrite mask values).keyEdge[k] =
      (s.keyEdge[k] || (!s.keys[k] && (s.keyWrite mask values).keys[k])) := by
  obtain ⟨x, hrun⟩ := h
  have hedge : (s.keyWrite mask values).keyEdge = edgesAfter s.keyEdge s.keys mask values := by
    rw [State.keyWrite_of_awaiting hrun]
  rw [State.getElem_keys_keyWrite, hedge]
  simp only [edgesAfter, Fin.getElem_fin, Vector.getElem_ofFn]
  cases mask.getLsbD k.val with
  | false => simp
  | true => simp [Bool.and_comm]

theorem State.keyEdge_keyWrite_of_not_awaiting (h : ¬ ∃ x, s.run = .awaitingKey x) :
    (s.keyWrite mask values).keyEdge = s.keyEdge := by
  rw [State.keyWrite_of_not_awaiting h]

end

/-- Settles O44: the keys and, in a wait, the edges after a key write (`State.getElem_keys_keyWrite`,
`State.getElem_keyEdge_keyWrite`). -/
theorem keyWriteSetsKeysAndEdges : Obligations.KeyWriteSetsKeysAndEdges := by
  unfold Obligations.KeyWriteSetsKeysAndEdges
  intro s s' mask values hturn
  have hstep : step s = .next (s'.keyWrite mask values) := step_of_eventTurn hturn
  obtain ⟨rest, -, rfl⟩ := hturn
  exact ⟨_, hstep, State.getElem_keys_keyWrite,
    State.getElem_keyEdge_keyWrite (s := { s with sched := rest }),
    State.keyEdge_keyWrite_of_not_awaiting (s := { s with sched := rest }),
    State.sameExcept_keyWrite _ mask values⟩

/-! ### Ticks -/

/-- A tick in `Running` or in a wait. -/
theorem State.tick_of_timed {s : State} (h : s.run = .running ∨ ∃ x, s.run = .awaitingKey x) :
    s.tick = s.tickTimers := by
  rcases h with h | ⟨x, h⟩
  · exact State.tick_of_running h
  · exact State.tick_of_awaiting h

theorem State.tick_of_untimed {s : State} (h : s.run = .ready ∨ s.ended) : s.tick = s := by
  rcases h with hready | ⟨why, hhalted⟩
  · exact State.tick_of_ready hready
  · exact State.tick_of_halted hhalted

/-- Settles O45: the two timers after a tick (`countDown_toNat`), by run state. -/
theorem tickCountsDownClamped : Obligations.TickCountsDownClamped := by
  unfold Obligations.TickCountsDownClamped
  intro s s' hturn
  have hstep : step s = .next s'.tick := step_of_eventTurn hturn
  obtain ⟨rest, -, rfl⟩ := hturn
  refine ⟨fun hrun => ?_, fun hrun => hstep.trans (congrArg _ (State.tick_of_untimed hrun))⟩
  have htick := State.tick_of_timed (s := { s with sched := rest }) hrun
  rw [htick] at hstep
  exact ⟨_, hstep, countDown_toNat s.DT, countDown_toNat s.ST, State.sameExcept_tickTimers _⟩

/-- Settles O46, by induction on the number of ticks: the first takes one from each timer and leaves the
run state, so the others follow it. -/
theorem ticksRunTheTimersDown : Obligations.TicksRunTheTimersDown := by
  unfold Obligations.TicksRunTheTimersDown
  intro n
  induction n with
  | zero =>
    intro s rest _ hsched
    exact ⟨s, rfl, rfl, rfl, hsched, s.sameExcept_nil.mono (List.nil_subset _)⟩
  | succ n ih =>
    intro s rest hrun hsched
    have hturn : s.eventTurn .tick { s with sched := List.replicate n .tick ++ rest } :=
      ⟨_, hsched, rfl⟩
    obtain ⟨t, hstep, hDT, hST, hframe⟩ := (tickCountsDownClamped s _ hturn).1 hrun
    have hrun' : t.run = s.run := hframe .run (by decide)
    obtain ⟨u, hruns, hDT', hST', hsched', hframe'⟩ :=
      ih t rest (by rwa [hrun']) (hframe .sched (by decide))
    refine ⟨u, (core_run_succ n hstep).trans hruns, by omega, by omega, hsched', ?_⟩
    exact (((s.sameExcept_setSched _).trans hframe).trans hframe').mono (by decide)

/-! ### Loads -/

section
variable {s : State} {rom : List Byte}

theorem State.readByte_load (h : s.run = .ready) (hrom : rom.length ≤ romMax) (a : Nat) :
    (s.load rom).readByte a = Memory.read (Memory.load s.mem rom) a := by
  rw [State.load_of_ready h hrom]; rfl

theorem State.readByte_load_image (h : s.run = .ready) (hrom : rom.length ≤ romMax) (j : Nat)
    (hj : j < rom.length) : (s.load rom).readByte (0x200 + j) = rom[j] := by
  rw [State.readByte_load h hrom, Memory.read_load, dif_pos (by omega)]
  simp

/-- After the image no cell stands, and an unlisted address so high reads 0. -/
theorem State.readByte_load_zeros (h : s.run = .ready) (hrom : rom.length ≤ romMax) (j : Nat)
    (hj : rom.length ≤ j) : (s.load rom).readByte (0x200 + j) = 0 := by
  rw [State.readByte_load h hrom, Memory.read_load, dif_neg (by omega), if_neg (by omega)]
  exact Memory.unlisted_above_font _ (by omega)

/-- Above 0xFFF no cell stands before or after. -/
theorem State.sameBytesOutside_load (h : s.run = .ready) (hrom : rom.length ≤ romMax)
    (hwf : Memory.wf s.mem) : SameBytesOutside 0x200 3584 s (s.load rom) := by
  intro b hb
  have hlen : rom.length ≤ 3584 := hrom
  rw [State.readByte_load h hrom, Memory.read_load, dif_neg (by omega)]
  split
  · rfl
  · refine (Memory.read_of_not_listed fun c hc hcb => ?_).symm
    have hc' : c.1 ≤ 0xFFF := (hwf.2 c hc).1
    omega

end

/-- Settles O48: the memory after an accepted load by address (`State.readByte_load_image`,
`State.readByte_load_zeros`, `State.sameBytesOutside_load`), and the answer. -/
theorem loadCopiesTheImage : Obligations.LoadCopiesTheImage := by
  unfold Obligations.LoadCopiesTheImage
  intro s s' rom hturn hrun hwf hlen
  have hstep : step s = .next (s'.load rom) := step_of_eventTurn hturn
  obtain ⟨rest, -, rfl⟩ := hturn
  have hload := State.load_of_ready (s := { s with sched := rest }) hrun hlen
  exact ⟨_, hstep, State.readByte_load_image hrun hlen,
    fun j hj _ => State.readByte_load_zeros (s := { s with sched := rest }) hrun hlen j hj,
    State.sameBytesOutside_load hrun hlen hwf,
    congrArg State.outputs hload, State.sameExcept_load _ rom⟩

/-- Settles O49: the answer to a load that is refused, by the reason. -/
theorem refusedLoadChangesNothing : Obligations.RefusedLoadChangesNothing := by
  unfold Obligations.RefusedLoadChangesNothing
  intro s s' rom hturn
  have hstep : step s = .next (s'.load rom) := step_of_eventTurn hturn
  obtain ⟨rest, -, rfl⟩ := hturn
  exact ⟨fun hrun hlen => hstep.trans (congrArg _ (State.load_of_too_large hrun (Nat.not_le_of_lt hlen))),
    fun hrun => hstep.trans (congrArg _ (State.load_of_ne_ready hrun))⟩

/-! ### Start and stop -/

/-- Settles O50: the state after each event, by whether the run state accepts it. -/
theorem startAndStopSetTheRunState : Obligations.StartAndStopSetTheRunState := by
  unfold Obligations.StartAndStopSetTheRunState
  intro s s'
  refine ⟨fun hturn hrun => ?_, fun hturn hrun => ?_, fun hturn hrun => ?_, fun hturn hrun => ?_⟩
  all_goals
    refine (step_of_eventTurn hturn).trans (congrArg Host.Outcome.next ?_)
    obtain ⟨rest, -, rfl⟩ := hturn
  · exact State.start_of_ready hrun
  · exact State.start_of_ne_ready hrun
  · exact State.stop_of_not_ended hrun
  · obtain ⟨why, hhalted⟩ := hrun
    exact State.stop_of_halted hhalted

end Sys2Proof.Machine
end

/-! ### What a step changes at all: the transitions of the run state, the end of a run, the timers, the
parameters and the keys (40_engine.md R109, R110; 10_state.md R38, R39, R41; 60_exceptions.md R304) -/

section
namespace Sys2Proof.Machine

section
variable {s t : State} {e : Event} {i : Instr}

/-! ### The pieces few instructions write -/

theorem ldDTVx_of_DT_mem_mayWrite (h : .DT ∈ mayWrite i) : ∃ x, i = .ldDTVx x := by
  cases i with
  | ldDTVx x => exact ⟨x, rfl⟩
  | _ => simp [mayWrite] at h

theorem ldSTVx_of_ST_mem_mayWrite (h : .ST ∈ mayWrite i) : ∃ x, i = .ldSTVx x := by
  cases i with
  | ldSTVx x => exact ⟨x, rfl⟩
  | _ => simp [mayWrite] at h

theorem cfg_keys_not_mem_mayWrite (i : Instr) : .cfg ∉ mayWrite i ∧ .keys ∉ mayWrite i := by
  cases i <;> simp [mayWrite]

/-! ### The frames of the moves -/

theorem State.sameExcept_raise (s : State) (c : FaultCause) (o : Option Word) :
    SameExcept [.run] s (s.raise c o) :=
  s.sameExcept_setRun _

/-- A move of the engine that executes no instruction. -/
theorem EngineMove.frame (h : EngineMove s t) :
    SameExcept [.V, .run, .keyEdge, .draws, .pc, .outputs] s t ∨
    ∃ w i, s.run = .running ∧ s.fetch = some w ∧ decode w = .instr i ∧ exec i s = .next t ∧
      SameExcept (mayWrite i) s t := by
  cases h with
  | idle | waits => exact .inl (s.sameExcept_nil.mono (List.nil_subset _))
  | completes x k => exact .inl ((s.sameExcept_completeWait x k).mono (by decide))
  | raises c => exact .inl ((s.sameExcept_raise c _).mono (by decide))
  | passes w =>
    exact .inl (((State.sameExcept_setPc _).trans (State.sameExcept_emit _ _)).mono (by decide))
  | executes w i t hrun hfetch hdecode hnone hexec hframe =>
    exact .inr ⟨w, i, hrun, hfetch, hdecode, hexec, hframe⟩

/-! ### Parameters and keys -/

theorem Move.cfg (h : Move s e t) : t.cfg = s.cfg := by
  cases h with
  | engine t h =>
    rcases h.frame with hframe | ⟨w, i, -, -, -, -, hframe⟩
    · exact hframe .cfg (by decide)
    · exact hframe .cfg (cfg_keys_not_mem_mayWrite i).1
  | tick => exact s.sameExcept_tick .cfg (by decide)
  | start => exact s.sameExcept_start .cfg (by decide)
  | stop => exact s.sameExcept_stop .cfg (by decide)
  | load rom => exact s.sameExcept_load rom .cfg (by decide)
  | keyWrite mask values => exact s.sameExcept_keyWrite mask values .cfg (by decide)

theorem Move.keys (h : Move s e t) (he : ∀ mask values, e ≠ .keyWrite mask values) :
    t.keys = s.keys := by
  cases h with
  | engine t h =>
    rcases h.frame with hframe | ⟨w, i, -, -, -, -, hframe⟩
    · exact hframe .keys (by decide)
    · exact hframe .keys (cfg_keys_not_mem_mayWrite i).2
  | tick => exact s.sameExcept_tick .keys (by decide)
  | start => exact s.sameExcept_start .keys (by decide)
  | stop => exact s.sameExcept_stop .keys (by decide)
  | load rom => exact s.sameExcept_load rom .keys (by decide)
  | keyWrite mask values => exact absurd rfl (he mask values)

/-! ### Timers -/

/-- DT and ST are as before but after a tick, or after an instruction. -/
theorem Move.timers (h : Move s e t) (he : e ≠ .tick) :
    (t.DT = s.DT ∧ t.ST = s.ST) ∨
    (e = .engine ∧ ∃ w i, s.run = .running ∧ s.fetch = some w ∧ decode w = .instr i ∧
      exec i s = .next t ∧ SameExcept (mayWrite i) s t) := by
  cases h with
  | engine t h =>
    rcases h.frame with hframe | hexecutes
    · exact .inl ⟨hframe .DT (by decide), hframe .ST (by decide)⟩
    · exact .inr ⟨rfl, hexecutes⟩
  | tick => exact absurd rfl he
  | start => exact .inl ⟨s.sameExcept_start .DT (by decide), s.sameExcept_start .ST (by decide)⟩
  | stop => exact .inl ⟨s.sameExcept_stop .DT (by decide), s.sameExcept_stop .ST (by decide)⟩
  | load rom => exact .inl ⟨s.sameExcept_load rom .DT (by decide), s.sameExcept_load rom .ST (by decide)⟩
  | keyWrite mask values =>
    have hframe := s.sameExcept_keyWrite mask values
    exact .inl ⟨hframe .DT (by decide), hframe .ST (by decide)⟩

/-! ### The run state -/

theorem EngineMove.transition (h : EngineMove s t) : runTransition s .engine t.run := by
  cases h with
  | idle hrun => simp [runTransition, hrun]
  | waits x hrun hedges => simp [runTransition, hrun, hedges]
  | completes x k hrun hedge =>
    have hne : s.keyEdge ≠ noEdges := fun hnone => by simp [hnone, noEdges] at hedge
    simp [runTransition, hrun, hne]
  | raises c hrun =>
    simp only [runTransition, hrun]
    exact .inr (.inr ⟨c, rfl⟩)
  | passes w hrun hfetch hdecode =>
    simp only [runTransition, hrun]
    refine .inl ⟨hrun, fun v x hv hK => ?_⟩
    cases hfetch.symm.trans hv
    cases hdecode.symm.trans hK
  | executes w i t hrun hfetch hdecode hnone hexec hframe =>
    simp only [runTransition, hrun]
    rcases exec_run_cases hexec hframe with ⟨x, rfl, hrun'⟩ | ⟨hne, hrun', -⟩
    · exact .inr (.inl ⟨w, x, hfetch, hdecode, hrun'⟩)
    · refine .inl ⟨hrun'.trans hrun, fun v x hv hK => ?_⟩
      cases hfetch.symm.trans hv
      cases hdecode.symm.trans hK
      exact hne x rfl

/-- An event the table has no transition for leaves the run state. -/
theorem runTransition_of_run_eq (h : t.run = s.run) (he : e ≠ .engine) (hstart : e ≠ .start)
    (hstop : e ≠ .stop) : runTransition s e t.run := by
  cases e with
  | engine => exact absurd rfl he
  | start => exact absurd rfl hstart
  | stop => exact absurd rfl hstop
  | tick | load _ | keyWrite _ _ => cases hrun : s.run <;> simpa [runTransition, hrun] using h

theorem Move.transition (h : Move s e t) : runTransition s e t.run := by
  cases h with
  | engine t h => exact h.transition
  | tick => exact runTransition_of_run_eq (s.sameExcept_tick .run (by decide)) nofun nofun nofun
  | start => cases hrun : s.run <;> simp [runTransition, State.start, hrun]
  | stop => cases hrun : s.run <;> simp [runTransition, State.stop, hrun]
  | load rom => exact runTransition_of_run_eq (s.sameExcept_load rom .run (by decide)) nofun nofun nofun
  | keyWrite mask values =>
    exact runTransition_of_run_eq (s.sameExcept_keyWrite mask values .run (by decide)) nofun nofun nofun

/-! ### A halted machine -/

/-- In `Halted` no move of the engine is open, and of the host's events a key write writes the keys alone
and a load the answers alone. -/
theorem Move.of_halted (h : Move s e t) {why : HaltReason} (hrun : s.run = .halted why) :
    SameExcept [.keys, .outputs] s t ∧
    ((∀ rom, e ≠ .load rom) → t.outputs = s.outputs) := by
  cases h with
  | engine t h =>
    cases h with
    | idle h | waits _ h | completes _ _ h | raises _ h | passes _ h | executes _ _ _ h =>
      cases hrun.symm.trans h
  | tick =>
    rw [State.tick_of_halted hrun]
    exact ⟨s.sameExcept_nil.mono (List.nil_subset _), fun _ => rfl⟩
  | start =>
    rw [State.start_of_ne_ready (by simp [hrun])]
    exact ⟨s.sameExcept_nil.mono (List.nil_subset _), fun _ => rfl⟩
  | stop =>
    rw [State.stop_of_halted hrun]
    exact ⟨s.sameExcept_nil.mono (List.nil_subset _), fun _ => rfl⟩
  | load rom =>
    rw [State.load_of_ne_ready (by simp [hrun])]
    exact ⟨(s.sameExcept_emit _).mono (by decide), fun he => absurd rfl (he rom)⟩
  | keyWrite mask values =>
    rw [State.keyWrite_of_not_awaiting (by simp [hrun])]
    exact ⟨(s.sameExcept_setKeys _).mono (by decide), fun _ => rfl⟩

end

/-- Settles O47: the timers are as before (`Move.timers`) but after a tick or an instruction, and of the
instructions one writes DT and one writes ST. -/
theorem timersChangeOnlyByTickOrWrite : Obligations.TimersChangeOnlyByTickOrWrite := by
  unfold Obligations.TimersChangeOnlyByTickOrWrite
  intro s t h he
  obtain ⟨sched, hmove⟩ := move_of_step h
  rcases hmove.timers he with ⟨hDT, hST⟩ | ⟨hengine, w, i, hrun, hfetch, hdecode, hexec, hframe⟩
  · exact ⟨fun hne => absurd hDT hne, fun hne => absurd hST hne⟩
  · refine ⟨fun hne => ?_, fun hne => ?_⟩
    · obtain ⟨x, rfl⟩ := ldDTVx_of_DT_mem_mayWrite (by_contra fun hDT => hne (hframe .DT hDT))
      cases hexec
      exact ⟨hengine, hrun, w, x, hfetch, hdecode, rfl⟩
    · obtain ⟨x, rfl⟩ := ldSTVx_of_ST_mem_mayWrite (by_contra fun hST => hne (hframe .ST hST))
      cases hexec
      exact ⟨hengine, hrun, w, x, hfetch, hdecode, rfl⟩

/-- Settles O51: in `Halted` the engine's turn ends the run (`engineStep_halted`), and any other move is one
of `Move.of_halted`. -/
theorem haltedIsTerminal : Obligations.HaltedIsTerminal := by
  unfold Obligations.HaltedIsTerminal
  intro s why hrun
  refine ⟨fun s' hturn => ?_, fun t h => ?_⟩
  · rw [step_of_engineTurn hturn]
    obtain ⟨sched, rfl⟩ := hturn.exists_sched
    exact engineStep_halted hrun
  · obtain ⟨sched, hmove⟩ := move_of_step h
    obtain ⟨hframe, houtputs⟩ := hmove.of_halted hrun
    have hrun' : t.run = s.run := hframe .run (by decide)
    exact ⟨hrun'.trans hrun, ((s.sameExcept_setSched sched).trans hframe).mono (by decide), hmove.keys,
      houtputs⟩

/-- Settles O52: every move makes a transition of the table (`Move.transition`), in which the schedule
has no part. -/
theorem runStateMovesOnlyAsListed : Obligations.RunStateMovesOnlyAsListed := by
  unfold Obligations.RunStateMovesOnlyAsListed
  intro s t h
  obtain ⟨sched, hmove⟩ := move_of_step h
  exact hmove.transition

/-- Settles O53: only the engine's turn can answer no next state (`takeEvent_of_ne_engine`), and only in
`Halted` does it (`engineStep_cases`). -/
theorem onlyAHaltedRunEnds : Obligations.OnlyAHaltedRunEnds := by
  unfold Obligations.OnlyAHaltedRunEnds
  intro s
  by_cases he : s.nextEvent.1 = .engine
  · have hturn := s.engineTurn_nextEvent he
    have hstep := step_of_engineTurn hturn
    rcases engineStep_cases s.nextEvent.2 with ⟨why, hrun, hfault⟩ | ⟨t, ht, -⟩
    · rw [s.nextEvent_state] at hrun
      exact .inr ⟨why, _, hrun, hturn, hstep.trans hfault⟩
    · exact .inl ⟨t, hstep.trans ht⟩
  · exact .inl (takeEvent_of_ne_engine he s.nextEvent.2)

/-- Settles O60: no move writes the parameters (`Move.cfg`), and of the moves only a key write writes the
keys (`Move.keys`). -/
theorem parametersAreFixedAndKeysAreTheHosts : Obligations.ParametersAreFixedAndKeysAreTheHosts := by
  unfold Obligations.ParametersAreFixedAndKeysAreTheHosts
  intro s t h
  obtain ⟨sched, hmove⟩ := move_of_step h
  exact ⟨hmove.cfg, hmove.keys⟩

end Sys2Proof.Machine
end

/-! ### Construction (70_reset_and_hazards.md R350, 10_state.md R47) -/

section
namespace Sys2Proof.Machine

theorem State.construct_controlInv (c : Config) : (State.construct c).controlInv :=
  State.controlInv_of_ready rfl (fun _ _ h => absurd h (Nat.not_lt_zero _)) rfl rfl

/-- Bytes that are what their addresses read as unlisted need no cell. -/
theorem Memory.ofBytes_eq_nil {bs : List Byte} {a : Nat}
    (h : ∀ j (hj : j < bs.length), bs[j] = Memory.unlisted (a + j)) : Memory.ofBytes a bs = [] := by
  induction bs generalizing a with
  | nil => rfl
  | cons b bs ih =>
    have htail : Memory.ofBytes (a + 1) bs = [] := ih fun j hj =>
      (h (j + 1) (Nat.succ_lt_succ hj)).trans (congrArg _ (by omega))
    rw [Memory.ofBytes, htail]
    exact if_pos (h 0 (Nat.succ_pos _))

theorem Memory.unlisted_font (j : Nat) (hj : j < 80) :
    Memory.unlisted (fontBase + j) = Config.standardFont[j] := by
  rw [Memory.unlisted, dif_pos (by omega)]
  simp

theorem Memory.unlisted_outside_font {a : Nat} (h : a < 0x050 ∨ 0x0A0 ≤ a) : Memory.unlisted a = 0 := by
  unfold Memory.unlisted fontBase
  rw [dif_neg (by omega)]

theorem State.construct_default : State.construct Config.default = State.reset := by
  have hmem : Memory.ofBytes fontBase Config.default.font.toList = [] :=
    Memory.ofBytes_eq_nil fun j hj => (Memory.unlisted_font j hj).symm
  rw [State.construct, hmem]
  rfl

/-- Settles O58: the memory by `State.construct_mem_wf`, the control state by `State.controlInv_of_ready`, and
the default font's bytes are those that need no cell. -/
theorem constructionMeetsTheInvariants : Obligations.ConstructionMeetsTheInvariants := by
  unfold Obligations.ConstructionMeetsTheInvariants
  exact ⟨fun c => ⟨State.construct_mem_wf c, State.construct_controlInv c⟩, State.construct_default⟩

theorem State.readByte_construct (c : Config) (a : Nat) :
    (State.construct c).readByte a =
      if h : 0x050 ≤ a ∧ a < 0x050 + 80 then c.font[a - 0x050] else Memory.unlisted a := by
  refine (Memory.read_ofBytes c.font.toList fontBase a).trans ?_
  simp [fontBase]

/-- Settles O59: the memory by `State.readByte_construct`, and every other piece is that of reset. -/
theorem constructionLeavesTheResetValues : Obligations.ConstructionLeavesTheResetValues := by
  unfold Obligations.ConstructionLeavesTheResetValues
  intro c
  refine ⟨fun j hj => ?_, fun a ha => ?_, fun k => ?_, rfl, rfl, rfl, fun j => ?_, rfl, rfl,
    Display.get_clear, fun k => ?_, noEdges_getElem, rfl, rfl, rfl⟩
  · rw [State.readByte_construct, dif_pos (by omega)]
    simp
  · rw [State.readByte_construct, dif_neg (by omega)]
    exact Memory.unlisted_outside_font ha
  · exact Vector.getElem_replicate _
  · exact Vector.getElem_replicate _
  · exact noEdges_getElem k

end Sys2Proof.Machine
end
